-- ==== Sys2Proof/Word.lean ====
section
/-! DEFINITION. The word types of the block (R12, R48, R55, R37). -/

namespace Sys2Proof

/-- A character or instruction byte (R12, R13). -/
abbrev Byte := BitVec 8

/-- A device word `RS : D[7:0]` (R48). -/
abbrev DevWord := BitVec 9

/-- A primitive call word `code[10:8] : operand[7:0]` (R55). -/
abbrev CallWord := BitVec 11

/-- A display memory address (R37, R52). -/
abbrev Addr := BitVec 7

end Sys2Proof
end

