-- ==== Sys2Proof/Syntax.lean ====
section
/-! DEFINITION. The spec's types (R14, R60) and Instr, one constructor per row of spec/opcode_table.json. -/

namespace Sys2Proof

/-- The register selector: instruction or data register (R14). -/
inductive Reg where
  | ir
  | dr
  deriving DecidableEq, Repr

/-- A record of the register selector last asserted (R14, R25). -/
inductive RsShadow where
  | unknown
  | known (r : Reg)
  deriving DecidableEq, Repr

/-- The two settling-delay classes (R10, R14). -/
inductive DelayClass where
  | short
  | long
  deriving DecidableEq, Repr

/-- A call on the transport or on the time source (R14, R55). -/
inductive Prim where
  | selIr
  | selDr
  | tx (b : Byte)
  | pulse
  | wait (d : DelayClass)
  deriving DecidableEq, Repr

/-- The calls the transport takes; a wait goes to the time source (R94). -/
def Prim.onTransport : Prim → Bool
  | .selIr => true
  | .selDr => true
  | .tx _ => true
  | .pulse => true
  | .wait _ => false

/-- What a call answers (R14, R95). -/
inductive Answer where
  | ok
  | fail
  deriving DecidableEq, Repr, Inhabited

/-- A host request (R14, R54). `col` and `row` are unbounded (D2). -/
inductive Request where
  | init
  | clear
  | setCursor (col row : Nat)
  | writeText (text : List Byte)
  deriving DecidableEq, Repr

/-- The tag of a request and of its response (R14). -/
inductive OpTag where
  | init
  | clear
  | setCursor
  | writeText
  deriving DecidableEq, Repr

/-- The run-time errors (R14, R112). -/
inductive ErrKind where
  | cursorOutOfRange
  | textOverflow
  | transportError
  | desynchronized
  deriving DecidableEq, Repr

/-- The construction errors (R14, R112, R129). -/
inductive ConfigError where
  | unboundTransport
  | invalidGeometry
  deriving DecidableEq, Repr

/-- A response to the host (R14, R56). -/
inductive Response where
  | done (t : OpTag)
  | err (t : OpTag) (k : ErrKind)
  deriving DecidableEq, Repr

/-- One cell of the shadow buffer, and what a display memory address holds (R14, R27). -/
inductive Cell where
  | unknown
  | blank
  | char (b : Byte)
  deriving DecidableEq, Repr

/-- The top-level phase (R14, R21). -/
inductive Phase where
  | busy
  | ready
  | desync
  deriving DecidableEq, Repr

/-- One entry of the event trace (R14, R29). -/
inductive Event where
  | req (q : Request)
  | call (p : Prim) (a : Answer)
  | resp (r : Response)
  deriving DecidableEq, Repr

/-- The encoder's input, as R60 declares it. -/
inductive DevInstr where
  | clearDisplay
  | returnHome
  | displayOn (cursor blink : Bool)
  | entryModeSet
  | functionSet
  | cursorShiftLeft
  | cursorShiftRight
  | setDdramAddress (a : Addr)
  | data (b : Byte)
  deriving DecidableEq, Repr

/-- The opcode table: 12 device words, 4 requests, 6 primitives. -/
inductive Instr where
  | clearDisplay
  | returnHome
  | displayOnCursorOffBlinkOff
  | displayOnCursorOffBlinkOn
  | displayOnCursorOnBlinkOff
  | displayOnCursorOnBlinkOn
  | entryModeSet
  | functionSet
  | cursorShiftLeft
  | cursorShiftRight
  | setDdramAddress (a : Addr)
  | dataWrite (d : Byte)
  | init
  | clear
  | setCursor (col row : Nat)
  | writeText (text : List Byte)
  | selIr
  | selDr
  | tx (b : Byte)
  | pulse
  | waitShort
  | waitLong
  deriving DecidableEq, Repr

/-- The table row of an encoder input; DISPLAY_ON has one row per variant (R63 to R66). -/
def DevInstr.toInstr : DevInstr → Instr
  | .clearDisplay => .clearDisplay
  | .returnHome => .returnHome
  | .displayOn false false => .displayOnCursorOffBlinkOff
  | .displayOn false true => .displayOnCursorOffBlinkOn
  | .displayOn true false => .displayOnCursorOnBlinkOff
  | .displayOn true true => .displayOnCursorOnBlinkOn
  | .entryModeSet => .entryModeSet
  | .functionSet => .functionSet
  | .cursorShiftLeft => .cursorShiftLeft
  | .cursorShiftRight => .cursorShiftRight
  | .setDdramAddress a => .setDdramAddress a
  | .data b => .dataWrite b

/-- The table row of a request. -/
def Request.toInstr : Request → Instr
  | .init => .init
  | .clear => .clear
  | .setCursor c r => .setCursor c r
  | .writeText t => .writeText t

/-- The table row of a primitive; `Wait` has one row per class (R100). -/
def Prim.toInstr : Prim → Instr
  | .selIr => .selIr
  | .selDr => .selDr
  | .tx b => .tx b
  | .pulse => .pulse
  | .wait .short => .waitShort
  | .wait .long => .waitLong

/-- The tag of a request (R54). -/
def Request.tag : Request → OpTag
  | .init => .init
  | .clear => .clear
  | .setCursor _ _ => .setCursor
  | .writeText _ => .writeText

/-- The request record of R54: a 2-bit tag and the operand fields. -/
structure ReqRecord where
  tag  : BitVec 2
  col  : Nat
  row  : Nat
  text : List Byte
  deriving DecidableEq, Repr

/-- The three encoded forms of the opcode table: device word (R48), request record (R54), call word (R55). -/
inductive Encoded where
  | dev (w : DevWord)
  | req (r : ReqRecord)
  | prim (w : CallWord)
  deriving DecidableEq, Repr

/-- The column of the opcode table an instruction belongs to. -/
inductive Format where
  | dev
  | req
  | prim
  deriving DecidableEq, Repr

def Encoded.format : Encoded → Format
  | .dev _ => .dev
  | .req _ => .req
  | .prim _ => .prim

def Instr.format : Instr → Format
  | .clearDisplay | .returnHome | .displayOnCursorOffBlinkOff | .displayOnCursorOffBlinkOn
  | .displayOnCursorOnBlinkOff | .displayOnCursorOnBlinkOn | .entryModeSet | .functionSet
  | .cursorShiftLeft | .cursorShiftRight | .setDdramAddress _ | .dataWrite _ => .dev
  | .init | .clear | .setCursor _ _ | .writeText _ => .req
  | .selIr | .selDr | .tx _ | .pulse | .waitShort | .waitLong => .prim

/-- Why a decoder refuses an encoded form (R57). -/
inductive Reject where
  /-- A device word that is no row of the table, such as a CGRAM address or a display-off byte. -/
  | unlistedDeviceWord
  /-- Primitive code 0b110 or 0b111. -/
  | reservedPrimCode
  /-- A non-zero operand in the call word of a primitive that has none. -/
  | operandNotZero
  /-- Response status 5, 6 or 7 (R56). -/
  | reservedStatus
  deriving DecidableEq, Repr

end Sys2Proof
end

