-- ==== Sys2Proof/Config.lean ====
section
/-! DEFINITION. The construction parameters (R8 to R11, R18) and the free values of the model. -/

namespace Sys2Proof

/-- What is fixed at construction and never changes (R18, R20). Times are in microseconds (R10). -/
structure Config where
  w : Nat
  h : Nat
  rowBase : List Nat
  tShort : Nat
  tLong : Nat
  transportBound : Bool
  deriving DecidableEq, Repr

/-- The default row-base table (R9, D17). -/
def Config.defaultRowBase : List Nat := [0x00, 0x40, 0x14, 0x54]

/-- A geometry with the default row bases, durations and a bound transport (R8 to R11). -/
def Config.ofSize (w h : Nat) : Config :=
  { w := w, h := h, rowBase := Config.defaultRowBase.take h, tShort := 45, tLong := 1530, transportBound := true }

/-- The default geometry, 16 columns by 2 rows (R8). -/
def Config.standard : Config := Config.ofSize 16 2

/-- FREE VALUE (log 2, U5): what the transport answers to its n-th call. -/
opaque Config.freeAnswer : Nat → Answer

/-- FREE VALUE (log 15, U1): the word latched by a pulse whose line or byte is not known. -/
opaque Config.freeWord : Nat → DevWord

/-- FREE VALUE (log 15, U2): the zero or one words latched by a failed pulse. -/
opaque Config.freeLatch : Nat → Option DevWord

/-- FREE VALUE (log 10, log 11, log 14): an address counter the spec does not state. -/
opaque Config.freeAddr : Nat → Addr

/-- FREE VALUE (log 10, log 14): a display-shift position the spec does not state. -/
opaque Config.freeShift : Nat → Int

/-- FREE VALUE (log 12): whether the display shifts to the right when a write shifts it. -/
opaque Config.freeShiftRight : Nat → Bool

/-- FREE VALUE (log 13, log 14): the eight configuration bits of a controller in an unspecified state. -/
opaque Config.freeFlags : Nat → BitVec 8

/-- FREE VALUE (log 19): the base of a row for which ROW_BASE has no entry. -/
opaque Config.freeRowBase : Nat → Nat

end Sys2Proof
end

