-- ==== Sys2Proof/Machine/Encoder.lean ====
section
/-! DEFINITION. The instruction encoder: `enc`, `delayOf` and the device word (R48, R60 to R74). -/

namespace Sys2Proof.Machine

/-- The encoder's output `(reg, byte, d)` (R60). -/
structure Enc where
  reg  : Reg
  byte : Byte
  d    : DelayClass
  deriving DecidableEq, Repr

/-- The DISPLAY_ON byte: class bit 3, D = 1, then C and B (R50, R63 to R66). -/
def displayOnByte (cursor blink : Bool) : Byte :=
  0x0C ||| (if cursor then 0x02 else 0) ||| (if blink then 0x01 else 0)

/-- The set-DDRAM-address byte `0x80 | zext_8(a)` (R52, R71). -/
def setDdramByte (a : Addr) : Byte := 0x80 ||| a.setWidth 8

/-- The instruction encoder (R61 to R72). -/
def enc : DevInstr → Enc
  | .clearDisplay => ⟨.ir, 0x01, .long⟩
  | .returnHome => ⟨.ir, 0x02, .long⟩
  | .displayOn c b => ⟨.ir, displayOnByte c b, .short⟩
  | .entryModeSet => ⟨.ir, 0x06, .short⟩
  | .functionSet => ⟨.ir, 0x38, .short⟩
  | .cursorShiftLeft => ⟨.ir, 0x10, .short⟩
  | .cursorShiftRight => ⟨.ir, 0x14, .short⟩
  | .setDdramAddress a => ⟨.ir, setDdramByte a, .short⟩
  | .data b => ⟨.dr, b, .short⟩

/-- The settling class a latched word needs (R73): Long for clear and return home, bit 0 of the latter ignored. -/
def delayOf : Reg → Byte → DelayClass
  | .ir, b => if b = 0x01 ∨ b.extractLsb' 1 7 = 0b0000001 then .long else .short
  | .dr, _ => .short

/-- The order of the classes, `Short < Long` (R109). -/
def delayReaches : DelayClass → DelayClass → Bool
  | .long, _ => true
  | .short, .short => true
  | .short, .long => false

/-- The 9-bit device word, RS = 0 for IR and 1 for DR (R48). -/
def deviceWord (reg : Reg) (b : Byte) : DevWord :=
  match reg with
  | .ir => 0#1 ++ b
  | .dr => 1#1 ++ b

end Sys2Proof.Machine
end

