-- ==== Sys2Proof/Machine/Operands.lean ====
section
/-! DEFINITION. Geometry, address assembly and the shadow buffer (R16, R36, R37, R52). -/

namespace Sys2Proof.Machine

/-- The number of cells, which is also the position END (R16). -/
def cellCount (c : Config) : Nat := c.w * c.h

/-- The linear position of a column and row, row-major (R16). -/
def position (c : Config) (col row : Nat) : Nat := row * c.w + col

/-- `ROW_BASE[r]` (R9); a row without an entry has a free base (log 19). -/
def rowBaseAt (c : Config) (r : Nat) : Nat := c.rowBase.getD r (Config.freeRowBase r)

/-- `addr(q) = ROW_BASE[q / W] + (q mod W)` (R16, R37). DESIGN CHOICE (log 19): R16 defines no `addr` at END; the function
is total and gives there what the formula gives, with a free base where ROW_BASE ends. No operation uses that value. -/
def addrOf (c : Config) (q : Nat) : Nat := rowBaseAt c (q / c.w) + q % c.w

/-- The 7-bit operand `A[6:0] = addr(q)` of a set-DDRAM-address instruction (R52). -/
def addrOperand (c : Config) (q : Nat) : Addr := BitVec.ofNat 7 (addrOf c q)

/-- A buffer with every cell the same. -/
def filled (c : Config) (x : Cell) : List Cell := List.replicate (cellCount c) x

/-- `BufWrite(q, x)` on the buffer being built (R36). -/
def bufWrite (q : Nat) (x : Cell) (buf : List Cell) : List Cell := buf.set q x

/-- The characters of a text written from position `q` on (R88). -/
def bufWriteText (q : Nat) : List Byte → List Cell → List Cell
  | [], buf => buf
  | b :: bs, buf => bufWriteText (q + 1) bs (bufWrite q (.char b) buf)

/-- The cell at a position, `Unknown` past the buffer's end. -/
def bufRead (q : Nat) (buf : List Cell) : Cell := buf.getD q .unknown

end Sys2Proof.Machine
end

