-- ==== Sys2Proof/Machine/Expand.lean ====
section
/-! DEFINITION. The expansion of each operation into its primitive list, and the values it commits (R79, R83 to R88). -/

namespace Sys2Proof.Machine

/-- The values an operation leaves behind (R17, R24). -/
structure Post where
  rs  : RsShadow
  cur : Nat
  buf : List Cell
  deriving DecidableEq, Repr

/-- The select primitive of a register (R79). -/
def selOf : Reg → Prim
  | .ir => .selIr
  | .dr => .selDr

/-- One transfer of the four-step micro-protocol (R79, R108). -/
def xfer (sh : RsShadow) (reg : Reg) (b : Byte) : List Prim × RsShadow :=
  let sel := if sh = .known reg then [] else [selOf reg]
  (sel ++ [.tx b, .pulse, .wait (delayOf reg b)], .known reg)

/-- The transfer of one encoder input. -/
def xferInstr (sh : RsShadow) (d : DevInstr) : List Prim × RsShadow :=
  xfer sh (enc d).reg (enc d).byte

/-- The initialization sequence: function set, display on, entry mode, clear (R83). -/
def initSeq (sh : RsShadow) : List Prim :=
  let p1 := xferInstr sh .functionSet
  let p2 := xferInstr p1.2 (.displayOn false false)
  let p3 := xferInstr p2.2 .entryModeSet
  let p4 := xferInstr p3.2 .clearDisplay
  p1.1 ++ p2.1 ++ p3.1 ++ p4.1

/-- What Initialize leaves (R83). -/
def initPost (c : Config) : Post := { rs := .known .ir, cur := 0, buf := filled c .blank }

/-- Clear display (R85). -/
def clearSeq (sh : RsShadow) : List Prim := (xferInstr sh .clearDisplay).1

/-- What Clear leaves (R85). -/
def clearPost (c : Config) : Post := { rs := .known .ir, cur := 0, buf := filled c .blank }

/-- Set cursor (R86). -/
def cursorSeq (c : Config) (sh : RsShadow) (col row : Nat) : List Prim :=
  (xferInstr sh (.setDdramAddress (addrOperand c (position c col row)))).1

/-- What SetCursor leaves; the buffer is as before (R86). -/
def cursorPost (c : Config) (col row : Nat) (buf : List Cell) : Post :=
  { rs := .known .ir, cur := position c col row, buf := buf }

/-- A character at `q` ends a row that is not the last (R88). -/
def endsRow (c : Config) (q : Nat) : Bool := (q + 1) % c.w == 0 && decide (q + 1 < cellCount c)

/-- The re-address to the next row after the character at `q`, if it ends a row (R88, D7). -/
def rewrap (c : Config) (sh : RsShadow) (q : Nat) : List Prim × RsShadow :=
  if endsRow c q then xferInstr sh (.setDdramAddress (addrOperand c (q + 1))) else ([], sh)

/-- The primitives of a text from position `q` on, and the shadow after them (R88). -/
def writeSeq (c : Config) (sh : RsShadow) (q : Nat) : List Byte → List Prim × RsShadow
  | [] => ([], sh)
  | b :: bs =>
    let x := xferInstr sh (.data b)
    let y := rewrap c x.2 q
    let r := writeSeq c y.2 (q + 1) bs
    (x.1 ++ y.1 ++ r.1, r.2)

/-- What WriteText leaves (R88). -/
def writePost (c : Config) (sh : RsShadow) (p : Nat) (text : List Byte) (buf : List Cell) : Post :=
  { rs := (writeSeq c sh p text).2, cur := p + text.length, buf := bufWriteText p text buf }

end Sys2Proof.Machine
end

