-- ==== Sys2Proof/Machine/State.lean ====
section
/-! DEFINITION. The whole state: the sequencer's record S (R17), its parameters (R18), the host's port (R78), the
transport's line model and contract checker (R102, R109) and the controller (R33). -/

namespace Sys2Proof.Machine

/-- Why a step stops. Neither reason arises in a state that meets R31. -/
inductive Fault where
  /-- Raised by WRITE_TEXT with a non-empty text in Ready while the cursor is unknown. Safe: R31 rules the state out
  (log 17). -/
  | cursorUnknown
  /-- Raised by the fetch in Busy with no operation or no pending primitive. Safe: R31 rules the state out (log 18). -/
  | operationLost
  deriving DecidableEq, Repr

/-- What the model declines. -/
inductive Refusal where
  /-- Raised by exec for an instruction without a meaning; none is left. Safe. -/
  | notModelled (mnemonic : String)
  /-- Raised by the observation `cellView` outside the geometry, never by a step (R32, U9). Safe. -/
  | cellOutsideGeometry
  deriving DecidableEq, Repr

/-- The sequencer state S, exactly the record of R17; the buffer is the list of its W*H cells (log 26). -/
structure Seq where
  phase : Phase
  op    : Option OpTag
  pend  : List Prim
  post  : Post
  rs    : RsShadow
  cur   : Option Nat
  buf   : List Cell
  last  : Option Response
  trace : List Event
  deriving DecidableEq, Repr

/-- The line model L of a transport (R102). -/
structure Line where
  rs  : RsShadow
  bus : Option Byte
  deriving DecidableEq, Repr

/-- The stage of the contract checker within a transfer (R109). -/
inductive Stage where
  | idle
  | selected
  | presented (b : Byte)
  | pulsed (b : Byte)
  deriving DecidableEq, Repr

/-- The contract checker: its line and stage, or Violation, which it never leaves (R109). -/
inductive Checker where
  | running (line : RsShadow) (stage : Stage)
  | violation
  deriving DecidableEq, Repr

/-- What a display memory address holds when no character is listed for it (log 9). -/
inductive Fill where
  | unknown
  | blank
  deriving DecidableEq, Repr

/-- The controller's display memory: the characters stored since the last fill, by rising address. -/
structure Ddram where
  fill  : Fill
  cells : List Host.Cell
  deriving DecidableEq, Repr

/-- The controller (R33): address counter, configuration bits (R50), display memory, and how far the display is shifted,
the cells to the right less the cells to the left (R50; log 12). `clearAddr` is the
model's own parameter of it, the address that a clear leaves in the counter; no word changes it (log 20). -/
structure Device where
  ac           : Addr
  dataLen8     : Bool
  twoLines     : Bool
  font5x10     : Bool
  displayOn    : Bool
  cursorOn     : Bool
  blinkOn      : Bool
  increment    : Bool
  shiftOnWrite : Bool
  ddram        : Ddram
  displayShift : Int
  clearAddr    : Addr
  deriving DecidableEq, Repr

/-- Everything below the transport interface: line model, checker of the calls made, words put to the controller from
outside the instance and not yet obeyed (log 1), the controller, the answers fixed in advance and the count of free values
drawn (log 2, log 28). -/
structure Bus where
  line    : Line
  watch   : Checker
  inbox   : List DevWord
  dev     : Device
  answers : List Answer
  draws   : Nat
  deriving DecidableEq, Repr

structure State where
  cfg  : Config
  seq  : Seq
  port : List Request
  bus  : Bus
  deriving DecidableEq, Repr

/-- The reset state S0 of the sequencer (R17, R131). -/
def Seq.reset (c : Config) : Seq :=
  { phase := .busy, op := some .init, pend := initSeq .unknown, post := initPost c, rs := .unknown, cur := none,
    buf := filled c .unknown, last := none, trace := [] }

/-- PRESUMED (log 8): the controller after its power-on reset. DESIGN CHOICE (log 9): its display memory is unknown.
DEDUCED (log 20): a clear returns its counter to the address of cell 0, so that R34 and R37 hold in every valid
configuration (U12); that is the 0 of R105 where the first row starts there, as by default. -/
def Device.reset (c : Config) : Device :=
  { ac := 0x00, dataLen8 := true, twoLines := false, font5x10 := false, displayOn := false, cursorOn := false,
    blinkOn := false, increment := true, shiftOnWrite := false, ddram := { fill := .unknown, cells := [] },
    displayShift := 0, clearAddr := addrOperand c 0 }

/-- The line model at construction (R102), the checker's start (R109), no word from outside. -/
def Bus.reset (c : Config) : Bus :=
  { line := { rs := .unknown, bus := none }, watch := .running .unknown .idle, inbox := [], dev := Device.reset c,
    answers := [], draws := 0 }

/-- The reset state of an instance with these parameters (R131); DESIGN CHOICE (log 5): no request is waiting. -/
def State.ofConfig (c : Config) : State :=
  { cfg := c, seq := Seq.reset c, port := [], bus := Bus.reset c }

/-- The machine right after reset, with the default parameters (R8 to R11, R131; log 4). -/
def State.reset : State := State.ofConfig Config.standard

end Sys2Proof.Machine
end

