-- ==== Sys2Proof/Machine/Contract.lean ====
section
/-! DEFINITION. The line model, the words a call latches, and the contract checker (R102 to R104, R109). -/

namespace Sys2Proof.Machine

/-- The line model after a call (R96 to R100, R102, R104). -/
def Line.onCall (l : Line) (p : Prim) (a : Answer) : Line :=
  match a with
  | .fail => { rs := .unknown, bus := none }
  | .ok =>
    match p with
    | .selIr => { l with rs := .known .ir }
    | .selDr => { l with rs := .known .dr }
    | .tx b => { l with bus := some b }
    | .pulse => l
    | .wait _ => l

/-- The word a pulse delivers, if the line and the byte are known (R103). -/
def Line.word (l : Line) : Option DevWord :=
  match l.rs, l.bus with
  | .known r, some b => some (deviceWord r b)
  | _, _ => none

/-- The checker after one call (R109). A word pulsed with an unknown line, which no rule reaches, is a Violation. -/
def Checker.onCall (k : Checker) (p : Prim) (a : Answer) : Checker :=
  match k, a with
  | .violation, _ => .violation
  | .running _ _, .fail => .running .unknown .idle
  | .running line stage, .ok =>
    match p, stage with
    | .selIr, .idle => .running (.known .ir) .selected
    | .selIr, .selected => .running (.known .ir) .selected
    | .selDr, .idle => .running (.known .dr) .selected
    | .selDr, .selected => .running (.known .dr) .selected
    | .tx b, .selected => .running line (.presented b)
    | .tx b, .idle => if line = .unknown then .violation else .running line (.presented b)
    | .pulse, .presented b => .running line (.pulsed b)
    | .wait d, .pulsed b =>
      match line with
      | .known r => if delayReaches d (delayOf r b) then .running line .idle else .violation
      | .unknown => .violation
    | _, _ => .violation

/-- The checker after an event; requests and responses are skipped (R109). -/
def Checker.onEvent (k : Checker) : Event → Checker
  | .call p a => k.onCall p a
  | .req _ => k
  | .resp _ => k

/-- The checker run over a trace from `(Unknown, Idle)` (R109). -/
def checkTrace (es : List Event) : Checker :=
  es.foldl Checker.onEvent (.running .unknown .idle)

/-- The checker over calls all answered Ok. -/
def Checker.onPrims (k : Checker) (ps : List Prim) : Checker :=
  ps.foldl (fun k p => k.onCall p .ok) k

/-- The latch stream of calls all answered Ok (R103); `none` is an unspecified word. -/
def latchStream (l : Line) : List Prim → List (Option DevWord)
  | [] => []
  | p :: ps =>
    let rest := latchStream (l.onCall p .ok) ps
    if p = .pulse then l.word :: rest else rest

end Sys2Proof.Machine
end

