-- ==== Sys2Proof/Decode.lean ====
section
/-! DEFINITION. Decoding of device words, request records, call words and responses, total and rejecting by name; then
the encoder of each (R48 to R58). -/

namespace Sys2Proof

open Sys2Proof.Machine

/-- A row of the device-word table: the bits that count and their values. -/
structure DevRow where
  mask  : DevWord
  value : DevWord
  instr : DevInstr
  deriving DecidableEq, Repr

/-- The device-word rows without an operand; masks clear the don't-care bits (R49, opcode_table.json). -/
def devRows : List DevRow :=
  [⟨0x1FF, 0x001, .clearDisplay⟩,
   ⟨0x1FE, 0x002, .returnHome⟩,
   ⟨0x1FF, 0x00C, .displayOn false false⟩,
   ⟨0x1FF, 0x00D, .displayOn false true⟩,
   ⟨0x1FF, 0x00E, .displayOn true false⟩,
   ⟨0x1FF, 0x00F, .displayOn true true⟩,
   ⟨0x1FF, 0x006, .entryModeSet⟩,
   ⟨0x1FC, 0x038, .functionSet⟩,
   ⟨0x1FC, 0x010, .cursorShiftLeft⟩,
   ⟨0x1FC, 0x014, .cursorShiftRight⟩]

def DevRow.fits (w : DevWord) (r : DevRow) : Bool := w &&& r.mask == r.value

/-- Decoding a device word: DR data (R51), set-DDRAM address (R52), else the table of constants (R49). -/
def decodeDevice (w : DevWord) : Option DevInstr :=
  if w.getLsbD 8 then some (.data (w.extractLsb' 0 8))
  else if w.getLsbD 7 then some (.setDdramAddress (w.extractLsb' 0 7))
  else (devRows.find? (DevRow.fits w)).map DevRow.instr

/-- Decoding a request record: every tag code is used, only the tag's own fields are read (R54). -/
def decodeRequest (r : ReqRecord) : Request :=
  if r.tag = 0b00 then .init
  else if r.tag = 0b01 then .clear
  else if r.tag = 0b10 then .setCursor r.col r.row
  else .writeText r.text

/-- A call word of a primitive without operand carries operand 0 (R55). -/
def plainCall (operand : Byte) (p : Prim) : Except Reject Prim :=
  if operand = 0 then .ok p else .error .operandNotZero

/-- Decoding a call word; codes 0b110 and 0b111 are reserved (R55, R57). -/
def decodePrim (w : CallWord) : Except Reject Prim :=
  let code := w.extractLsb' 8 3
  let operand := w.extractLsb' 0 8
  if code = 0b000 then plainCall operand .selIr
  else if code = 0b001 then plainCall operand .selDr
  else if code = 0b010 then .ok (.tx operand)
  else if code = 0b011 then plainCall operand .pulse
  else if code = 0b100 then plainCall operand (.wait .short)
  else if code = 0b101 then plainCall operand (.wait .long)
  else .error .reservedPrimCode

/-- The decoder of the opcode table. -/
def decode : Encoded → Except Reject Instr
  | .dev w =>
    match decodeDevice w with
    | some d => .ok d.toInstr
    | none => .error .unlistedDeviceWord
  | .req r => .ok (decodeRequest r).toInstr
  | .prim w => (decodePrim w).map Prim.toInstr

/-- The device word the encoder gives (R48, R60). -/
def encodeDevice (d : DevInstr) : DevWord := deviceWord (enc d).reg (enc d).byte

/-- The tag code of a request (R54). -/
def encodeTag : OpTag → BitVec 2
  | .init => 0b00
  | .clear => 0b01
  | .setCursor => 0b10
  | .writeText => 0b11

/-- The record of a request (R54). DESIGN CHOICE (log 32): the fields its tag does not read hold 0 and the empty list. -/
def encodeRequest : Request → ReqRecord
  | .init => ⟨encodeTag .init, 0, 0, []⟩
  | .clear => ⟨encodeTag .clear, 0, 0, []⟩
  | .setCursor c r => ⟨encodeTag .setCursor, c, r, []⟩
  | .writeText t => ⟨encodeTag .writeText, 0, 0, t⟩

/-- The call word of a primitive, `code·0x100 + operand` (R55). -/
def encodePrim : Prim → CallWord
  | .selIr => 0x000
  | .selDr => 0x100
  | .tx b => 0b010#3 ++ b
  | .pulse => 0x300
  | .wait .short => 0x400
  | .wait .long => 0x500

/-- The encoder of the opcode table. -/
def encode : Instr → Encoded
  | .clearDisplay => .dev (encodeDevice .clearDisplay)
  | .returnHome => .dev (encodeDevice .returnHome)
  | .displayOnCursorOffBlinkOff => .dev (encodeDevice (.displayOn false false))
  | .displayOnCursorOffBlinkOn => .dev (encodeDevice (.displayOn false true))
  | .displayOnCursorOnBlinkOff => .dev (encodeDevice (.displayOn true false))
  | .displayOnCursorOnBlinkOn => .dev (encodeDevice (.displayOn true true))
  | .entryModeSet => .dev (encodeDevice .entryModeSet)
  | .functionSet => .dev (encodeDevice .functionSet)
  | .cursorShiftLeft => .dev (encodeDevice .cursorShiftLeft)
  | .cursorShiftRight => .dev (encodeDevice .cursorShiftRight)
  | .setDdramAddress a => .dev (encodeDevice (.setDdramAddress a))
  | .dataWrite d => .dev (encodeDevice (.data d))
  | .init => .req (encodeRequest .init)
  | .clear => .req (encodeRequest .clear)
  | .setCursor c r => .req (encodeRequest (.setCursor c r))
  | .writeText t => .req (encodeRequest (.writeText t))
  | .selIr => .prim (encodePrim .selIr)
  | .selDr => .prim (encodePrim .selDr)
  | .tx b => .prim (encodePrim (.tx b))
  | .pulse => .prim (encodePrim .pulse)
  | .waitShort => .prim (encodePrim (.wait .short))
  | .waitLong => .prim (encodePrim (.wait .long))

/-- The status code of an error kind (R56, R112). -/
def encodeErrKind : ErrKind → BitVec 3
  | .cursorOutOfRange => 1
  | .textOverflow => 2
  | .transportError => 3
  | .desynchronized => 4

/-- The 2-bit tag and 3-bit status of a response (R56). -/
def encodeResponse : Response → BitVec 2 × BitVec 3
  | .done t => (encodeTag t, 0)
  | .err t k => (encodeTag t, encodeErrKind k)

def decodeTag (c : BitVec 2) : OpTag :=
  if c = 0b00 then .init else if c = 0b01 then .clear else if c = 0b10 then .setCursor else .writeText

/-- Decoding a response; status 5 to 7 is reserved (R56, R57). -/
def decodeResponse (tag : BitVec 2) (status : BitVec 3) : Except Reject Response :=
  let t := decodeTag tag
  if status = 0 then .ok (.done t)
  else if status = 1 then .ok (.err t .cursorOutOfRange)
  else if status = 2 then .ok (.err t .textOverflow)
  else if status = 3 then .ok (.err t .transportError)
  else if status = 4 then .ok (.err t .desynchronized)
  else .error .reservedStatus

/-- The encoded form a bare word of the opcode table stands for. `nbits` tells the column: up to 8 a request tag, 9 a
device word, 11 a call word. Words rounded up to 16 bits may be either of the last two (log 16): one with a bit above
bit 8, or with the exact value of SEL_IR or SEL_DR, is read as a call word, every other as a device word. -/
def tableForm (nbits w : Nat) : Option Encoded :=
  if nbits ≤ 8 then
    if w < 4 then some (.req ⟨BitVec.ofNat 2 w, 0, 0, []⟩) else none
  else if w < 0x200 ∧ nbits ≠ 11 ∧ (nbits = 9 ∨ (w ≠ 0x000 ∧ w ≠ 0x100)) then some (.dev (BitVec.ofNat 9 w))
  else if w < 0x800 ∧ nbits ≠ 9 then some (.prim (BitVec.ofNat 11 w))
  else none

def decodeTableWord (nbits w : Nat) : Option Instr :=
  match tableForm nbits w with
  | some e =>
    match decode e with
    | .ok i => some i
    | .error _ => none
  | none => none

end Sys2Proof
end

