-- ==== Sys2Proof/Machine/Device.lean ====
section
/-! DEFINITION. The controller's display memory, address counter and obeyed words (R33, R34, R49, R50, R105). -/

namespace Sys2Proof.Machine

/-- What an address reads as when no character is listed for it (log 9). -/
def Fill.toCell : Fill → Cell
  | .unknown => .unknown
  | .blank => .blank

/-- The character listed for an address. -/
def cellLookup (a : Nat) : List Host.Cell → Option Byte
  | [] => none
  | (k, b) :: rest => if k = a then some b else cellLookup a rest

/-- Lists a character at an address, keeping the addresses strictly rising. -/
def cellInsert (a : Nat) (b : Byte) : List Host.Cell → List Host.Cell
  | [] => [(a, b)]
  | (k, x) :: rest =>
    if a < k then (a, b) :: (k, x) :: rest
    else if a = k then (a, b) :: rest
    else (k, x) :: cellInsert a b rest

/-- One address of the display memory. -/
def Ddram.read (m : Ddram) (a : Nat) : Cell :=
  match cellLookup a m.cells with
  | some b => .char b
  | none => m.fill.toCell

/-- Stores a character (R105). -/
def Ddram.write (m : Ddram) (a : Addr) (b : Byte) : Ddram :=
  { m with cells := cellInsert a.toNat b m.cells }

/-- Addresses strictly rising. -/
def rising : List Host.Cell → Bool
  | [] => true
  | [_] => true
  | x :: y :: rest => decide (x.1 < y.1) && rising (y :: rest)

/-- The canonical form: addresses strictly rising and of 7 bits. A listed character never equals what an unlisted
address reads as, which is no character. -/
def Ddram.wf (m : Ddram) : Bool := rising m.cells && m.cells.all (fun x => decide (x.1 < 128))

/-- The counter one cell on: 0x27 to 0x40 and 0x67 to 0x00 in two-line mode (R34), free past 0x7F (log 11). -/
def nextAddr (twoLines : Bool) (n : Nat) (a : Addr) : Addr :=
  if twoLines && a == 0x27 then 0x40
  else if twoLines && a == 0x67 then 0x00
  else if a == 0x7F then Config.freeAddr n
  else a + 1

/-- The counter one cell back (R50); the spec states no value past the start of a line (log 11). -/
def prevAddr (twoLines : Bool) (n : Nat) (a : Addr) : Addr :=
  if a == 0x00 then Config.freeAddr n
  else if twoLines && a == 0x40 then Config.freeAddr n
  else a - 1

/-- The counter after a data word, by I/D (R50, R105). -/
def Device.advance (d : Device) (n : Nat) : Addr :=
  if d.increment then nextAddr d.twoLines n d.ac else prevAddr d.twoLines n d.ac

/-- Fills the display memory with the blank character and returns the counter to the address of cell (0,0): 0 by R105, and
`addr(0)` by R34 and R37, which differ only where the first row starts elsewhere (log 20). DEDUCED (log 12): the display is
no longer shifted. -/
def Device.clear (d : Device) : Device :=
  { d with ac := d.clearAddr, ddram := { fill := .blank, cells := [] }, displayShift := 0 }

/-- DESIGN CHOICE (log 10): the counter and the display shift after return home are free. -/
def Device.home (d : Device) (n : Nat) : Device := { d with ac := Config.freeAddr n, displayShift := Config.freeShift n }

/-- Entry mode set: I/D and S (R50). -/
def Device.setEntryMode (d : Device) (id s : Bool) : Device := { d with increment := id, shiftOnWrite := s }

/-- Display control: D, C and B (R50). -/
def Device.setDisplay (d : Device) (on cursor blink : Bool) : Device :=
  { d with displayOn := on, cursorOn := cursor, blinkOn := blink }

/-- Function set: DL, N and F (R50). -/
def Device.setFunction (d : Device) (dl n f : Bool) : Device :=
  { d with dataLen8 := dl, twoLines := n, font5x10 := f }

/-- Set DDRAM address (R105). -/
def Device.setAddress (d : Device) (a : Addr) : Device := { d with ac := a }

/-- Cursor move: R/L = 1 right, 0 left (R50, log 11). -/
def Device.moveCursor (d : Device) (right : Bool) (n : Nat) : Device :=
  { d with ac := if right then nextAddr d.twoLines n d.ac else prevAddr d.twoLines n d.ac }

/-- A display shift of one cell: R/L = 1 right, 0 left (R50; one cell is log 12's). -/
def shiftBy (right : Bool) (k : Int) : Int := if right then k + 1 else k - 1

/-- Display shift: S/C = 1 (R50). -/
def Device.shiftDisplay (d : Device) (right : Bool) : Device := { d with displayShift := shiftBy right d.displayShift }

/-- How far the display is shifted after a write: S = 1 shifts it (R50), to a side the spec does not state (log 12). -/
def Device.shiftAfterWrite (d : Device) (n : Nat) : Int :=
  if d.shiftOnWrite then shiftBy (Config.freeShiftRight n) d.displayShift else d.displayShift

/-- A data word: stores at the counter, then advances it (R105); S = 1 shifts the display (R50). -/
def Device.store (d : Device) (b : Byte) (n : Nat) : Device :=
  { d with ddram := d.ddram.write d.ac b, ac := d.advance n, displayShift := d.shiftAfterWrite n }

/-- A controller of which nothing is known (U3): free counter, bits and display shift, every cell unknown. What a later clear leaves in
the counter stays as it was. -/
def Device.unspecified (d : Device) (n : Nat) : Device :=
  let f := Config.freeFlags n
  { ac := Config.freeAddr n, dataLen8 := f.getLsbD 0, twoLines := f.getLsbD 1, font5x10 := f.getLsbD 2,
    displayOn := f.getLsbD 3, cursorOn := f.getLsbD 4, blinkOn := f.getLsbD 5, increment := f.getLsbD 6,
    shiftOnWrite := f.getLsbD 7, ddram := { fill := .unknown, cells := [] },
    displayShift := Config.freeShift n, clearAddr := d.clearAddr }

/-- What the controller does with a word of the encoder's instruction set (R50, R105); `n` indexes the free values. -/
def effectOf (i : DevInstr) (n : Nat) (d : Device) : Device :=
  match i with
  | .clearDisplay => d.clear
  | .returnHome => d.home n
  | .displayOn c b => d.setDisplay true c b
  | .entryModeSet => d.setEntryMode true false
  | .functionSet => d.setFunction true true false
  | .cursorShiftLeft => d.moveCursor false n
  | .cursorShiftRight => d.moveCursor true n
  | .setDdramAddress a => d.setAddress a
  | .data b => d.store b n

/-- What the controller does with a word that is no row of the table, by its class and fields (R49, R50; log 13): a
CGRAM address and the byte 0x00 leave it unspecified. -/
def Device.unlisted (d : Device) (w : DevWord) (n : Nat) : Device :=
  if w.getLsbD 6 then d.unspecified n
  else if w.getLsbD 5 then d.setFunction (w.getLsbD 4) (w.getLsbD 3) (w.getLsbD 2)
  else if w.getLsbD 4 then d.shiftDisplay (w.getLsbD 2)
  else if w.getLsbD 3 then d.setDisplay (w.getLsbD 2) (w.getLsbD 1) (w.getLsbD 0)
  else if w.getLsbD 2 then d.setEntryMode (w.getLsbD 1) (w.getLsbD 0)
  else d.unspecified n

/-- The controller receives a word (R103): it obeys a row of the table, or a word that is none. DESIGN CHOICE (log 13): with
DL = 0 too it takes the word as a whole 8-bit word, since no rule says how it would take it otherwise. -/
def Device.receive (d : Device) (w : DevWord) (n : Nat) : Device :=
  match decodeDevice w with
  | some i => effectOf i n d
  | none => d.unlisted w n

end Sys2Proof.Machine
end

