-- ==== Sys2Proof/Machine/Flags.lean ====
section
/-! DEFINITION. The status indications: events, responses, phase changes and the observation functions (R15, R28 to R32).
The block has no arithmetic flag (R30). -/

namespace Sys2Proof.Machine

/-- Appends an event to the trace (R15, R29). -/
def Seq.record (S : Seq) (e : Event) : Seq := { S with trace := S.trace ++ [e] }

/-- Posts a response: the last response and the trace (R15, R28). -/
def Seq.respond (S : Seq) (r : Response) : Seq := { S.record (.resp r) with last := some r }

def State.record (s : State) (e : Event) : State := { s with seq := s.seq.record e }

def State.respond (s : State) (r : Response) : State := { s with seq := s.seq.respond r }

/-- What `cursorView` reports (R32). -/
inductive CursorView where
  | unknown
  | at (col row : Nat)
  | past
  deriving DecidableEq, Repr

/-- The view of a cursor model (R26, R32). -/
def viewOf (c : Config) : Option Nat → CursorView
  | none => .unknown
  | some q => if q < cellCount c then .at (q % c.w) (q / c.w) else .past

def State.phaseOf (s : State) : Phase := s.seq.phase

def State.lastOf (s : State) : Option Response := s.seq.last

def State.cursorView (s : State) : CursorView := viewOf s.cfg s.seq.cur

/-- The cell shown at a column and row; refused outside the geometry (R32, U9). -/
def State.cellView (s : State) (col row : Nat) : Except Refusal Cell :=
  if col < s.cfg.w ∧ row < s.cfg.h then .ok (bufRead (position s.cfg col row) s.seq.buf)
  else .error .cellOutsideGeometry

end Sys2Proof.Machine
end

