-- ==== Sys2Proof/Machine/Ops.lean ====
section
/-! DEFINITION. The named operations: taking a request, starting, completing and failing an operation (R80, R81, R114),
a call on the transport or time source (R94 to R104), a word obeyed by the controller (R105, R111). -/

namespace Sys2Proof.Machine

/-- The outcome of one step of this machine. -/
abbrev Result := Host.Outcome State Fault Refusal

/-- Entering Busy with a primitive list and the values to commit (R80). -/
def Seq.start (S : Seq) (t : OpTag) (prims : List Prim) (post : Post) : Seq :=
  { S with phase := .busy, op := some t, pend := prims, post := post }

def State.start (s : State) (t : OpTag) (prims : List Prim) (post : Post) : State :=
  { s with seq := s.seq.start t prims post }

/-- A request presented in Busy waits at the head of the port, neither dropped nor rejected (R78; log 6). -/
def State.hold (s : State) (q : Request) : State := { s with port := q :: s.port }

/-- The common part of accepting a request (R78, R80, R115, R117): held in Busy; recorded and, in Desync and not
Init, answered Desynchronized; else recorded and carried out by `body`. -/
def State.take (s : State) (q : Request) (body : State → Result) : Result :=
  match s.seq.phase with
  | .busy => .next (s.hold q)
  | .desync =>
    if q.tag = .init then body (s.record (.req q))
    else .next ((s.record (.req q)).respond (.err q.tag .desynchronized))
  | .ready => body (s.record (.req q))

/-- The exception of this block, a failed transport call (R114). -/
def Seq.enterDesync (S : Seq) (c : Config) : Seq :=
  { S with phase := .desync, op := none, pend := [], rs := .unknown, cur := none, buf := filled c .unknown }

/-- Completing an operation: shadow, cursor and buffer are committed at once (R24, R81). -/
def Seq.commit (S : Seq) : Seq :=
  { S with pend := [], rs := S.post.rs, cur := some S.post.cur, buf := S.post.buf, phase := .ready, op := none }

/-- The issue step of an operation `t` whose pending list is `p :: rest` (R81). -/
def Seq.issue (S : Seq) (c : Config) (t : OpTag) (p : Prim) (rest : List Prim) (a : Answer) : Seq :=
  let S1 := S.record (.call p a)
  match a with
  | .fail => (S1.enterDesync c).respond (.err t .transportError)
  | .ok =>
    match rest with
    | [] => S1.commit.respond (.done t)
    | _ :: _ => { S1 with pend := rest }

/-- The transport's next answer: fixed in advance, else free (R95, U5; log 2). -/
def Bus.nextAnswer (b : Bus) : Answer :=
  match b.answers with
  | a :: _ => a
  | [] => Config.freeAnswer b.draws

/-- What a call answers; a wait always Ok (R95, R100). -/
def Bus.answerTo (b : Bus) : Prim → Answer
  | .wait _ => .ok
  | _ => b.nextAnswer

/-- The words a call latches: one for a pulse answered Ok, unspecified if the line or the byte is not known (R103, U1);
zero or one, unspecified, for a failed pulse (R104, U2); none for any other call (R42). -/
def Bus.latched (b : Bus) (p : Prim) (a : Answer) : List DevWord :=
  match p, a with
  | .pulse, .ok => [b.line.word.getD (Config.freeWord b.draws)]
  | .pulse, .fail => (Config.freeLatch b.draws).toList
  | _, _ => []

/-- The answers left after a call; a wait asks the transport for none. -/
def Bus.answersAfter (b : Bus) : Prim → List Answer
  | .wait _ => b.answers
  | _ => b.answers.tail

/-- The controller after a call: it receives what the call latches (R42, R103), and is unspecified once the checker has
reached Violation (R111, U3; log 14). -/
def Bus.devAfter (b : Bus) (p : Prim) (a : Answer) : Device :=
  match b.watch.onCall p a with
  | .violation => b.dev.unspecified b.draws
  | .running _ _ => (b.latched p a).foldl (fun d w => d.receive w b.draws) b.dev

/-- A call answered `a`: line model, checker, controller, answers (R96 to R104, R109). -/
def Bus.call (b : Bus) (p : Prim) (a : Answer) : Bus :=
  { b with
    line := b.line.onCall p a
    watch := b.watch.onCall p a
    dev := b.devAfter p a
    answers := b.answersAfter p
    draws := b.draws + 1 }

/-- A call made past the sequencer (R116). One on the transport leaves the controller unspecified, until an Init is taken:
this is held as a violated contract (U7; log 24). A wait touches neither the transport nor the controller (R100; log 7). -/
def Bus.stray (b : Bus) (p : Prim) (a : Answer) : Bus :=
  if p.onTransport then { b.call p a with watch := .violation, dev := b.dev.unspecified b.draws }
  else { b with draws := b.draws + 1 }

/-- The sequencer's own call: the call on the bus and the issue step on its answer (R81). -/
def State.issue (s : State) (t : OpTag) (p : Prim) (rest : List Prim) : State :=
  { s with seq := s.seq.issue s.cfg t p rest (s.bus.answerTo p), bus := s.bus.call p (s.bus.answerTo p) }

/-- A call made past the sequencer: the bus sees it, S does not (R116). -/
def State.bypass (s : State) (p : Prim) : State := { s with bus := s.bus.stray p (s.bus.answerTo p) }

/-- Performing a primitive: the sequencer's own call if it is the head of its list (R81), else a call made past the
sequencer (R116; log 7). -/
def State.call (s : State) (p : Prim) : State :=
  match s.seq.phase, s.seq.op, s.seq.pend with
  | .busy, some t, hd :: rest => if hd = p then s.issue t p rest else s.bypass p
  | _, _, _ => s.bypass p

/-- The contract starts afresh when an Init is taken, where R110 has it stand: in Idle on the shadow. DEDUCED (log 14, log
24): what went before is void from then on, and the line is taken to be what the shadow says, since by R116 an Init restores
the mirror; where nothing bypassed the engine the line is that already. -/
def Bus.restart (b : Bus) (rs : RsShadow) : Bus :=
  { b with watch := .running rs .idle, line := { b.line with rs := rs } }

def State.restart (s : State) : State := { s with bus := s.bus.restart s.seq.rs }

/-- A change of the controller by a word, unspecified once the checker has reached Violation (R111, U3; log 14). DESIGN CHOICE
(log 25): a word obeyed without a pulse asks for no settling wait; the checker stays as it was, and the next word or call is
obeyed at once. -/
def Bus.change (b : Bus) (f : Nat → Device → Device) : Bus :=
  match b.watch with
  | .violation => { b with dev := b.dev.unspecified b.draws, draws := b.draws + 1 }
  | .running _ _ => { b with dev := f b.draws b.dev, draws := b.draws + 1 }

/-- The controller obeys a word of the encoder's set (R105). -/
def Bus.obey (b : Bus) (i : DevInstr) : Bus := b.change (effectOf i)

def State.obey (s : State) (i : DevInstr) : State := { s with bus := s.bus.obey i }

/-- The controller receives a word that is no row of the table (log 13). -/
def State.obeyUnlisted (s : State) (w : DevWord) : State :=
  { s with bus := s.bus.change (fun n d => d.unlisted w n) }

end Sys2Proof.Machine
end

