-- ==== Sys2Proof/Machine/DeviceWords.lean ====
section
/-! DEFINITION. The twelve device words: the controller obeys the word (R61 to R72, R103, R105; log 1, log 25). -/

namespace Sys2Proof.Machine

/-- R61, R105: blank display memory, the counter at cell (0,0) (log 20). -/
def execClearDisplay (s : State) : Result := .next (s.obey .clearDisplay)

/-- R62; the counter's value is free (log 10). -/
def execReturnHome (s : State) : Result := .next (s.obey .returnHome)

/-- R63: D = 1, C = 0, B = 0. -/
def execDisplayOnCursorOffBlinkOff (s : State) : Result := .next (s.obey (.displayOn false false))

/-- R64: D = 1, C = 0, B = 1. -/
def execDisplayOnCursorOffBlinkOn (s : State) : Result := .next (s.obey (.displayOn false true))

/-- R65: D = 1, C = 1, B = 0. -/
def execDisplayOnCursorOnBlinkOff (s : State) : Result := .next (s.obey (.displayOn true false))

/-- R66: D = 1, C = 1, B = 1. -/
def execDisplayOnCursorOnBlinkOn (s : State) : Result := .next (s.obey (.displayOn true true))

/-- R67: I/D = 1, S = 0. -/
def execEntryModeSet (s : State) : Result := .next (s.obey .entryModeSet)

/-- R68: DL = 1, N = 1, F = 0. -/
def execFunctionSet (s : State) : Result := .next (s.obey .functionSet)

/-- R69: S/C = 0, R/L = 0. -/
def execCursorShiftLeft (s : State) : Result := .next (s.obey .cursorShiftLeft)

/-- R70: S/C = 0, R/L = 1. -/
def execCursorShiftRight (s : State) : Result := .next (s.obey .cursorShiftRight)

/-- R71, R105: the counter becomes the operand. -/
def execSetDdramAddress (a : Addr) (s : State) : Result := .next (s.obey (.setDdramAddress a))

/-- R72, R105: the byte is stored at the counter, which then advances. -/
def execDataWrite (d : Byte) (s : State) : Result := .next (s.obey (.data d))

end Sys2Proof.Machine
end

