-- ==== Sys2Proof/Machine/Primitives.lean ====
section
/-! DEFINITION. The six primitives: a call and the sequencer's issue step on its answer (R81, R94 to R104). -/

namespace Sys2Proof.Machine

/-- SEL_IR (R96). -/
def execSelIr (s : State) : Result := .next (s.call .selIr)

/-- SEL_DR (R97). -/
def execSelDr (s : State) : Result := .next (s.call .selDr)

/-- TX (R98). -/
def execTx (b : Byte) (s : State) : Result := .next (s.call (.tx b))

/-- PULSE (R99, R103). -/
def execPulse (s : State) : Result := .next (s.call .pulse)

/-- WAIT_SHORT (R100). -/
def execWaitShort (s : State) : Result := .next (s.call (.wait .short))

/-- WAIT_LONG (R100). -/
def execWaitLong (s : State) : Result := .next (s.call (.wait .long))

end Sys2Proof.Machine
end

