-- ==== Sys2Proof/Machine/Requests.lean ====
section
/-! DEFINITION. The four host requests: the accept step (R80, R83 to R91, R115).
In each body `t` is the state with the request recorded; `s` is the state the request is taken in. -/

namespace Sys2Proof.Machine

/-- INIT (R83): never rejected, the way out of Desync (R115) and of a violated contract (R116). -/
def execInit (s : State) : Result :=
  s.take .init fun t => .next (t.start .init (initSeq s.seq.rs) (initPost s.cfg)).restart

/-- CLEAR (R85). -/
def execClear (s : State) : Result :=
  s.take .clear fun t => .next (t.start .clear (clearSeq s.seq.rs) (clearPost s.cfg))

/-- SET_CURSOR (R86); out of range is rejected, not clamped (R87). -/
def execSetCursor (col row : Nat) (s : State) : Result :=
  s.take (.setCursor col row) fun t =>
    if col ≥ s.cfg.w ∨ row ≥ s.cfg.h then .next (t.respond (.err .setCursor .cursorOutOfRange))
    else .next (t.start .setCursor (cursorSeq s.cfg s.seq.rs col row) (cursorPost s.cfg col row s.seq.buf))

/-- WRITE_TEXT (R88): empty is a no-op (R89), past the last cell is rejected whole (R90). -/
def execWriteText (text : List Byte) (s : State) : Result :=
  s.take (.writeText text) fun t =>
    if text = [] then .next (t.respond (.done .writeText))
    else
      match s.seq.cur with
      | none => .fault .cursorUnknown
      | some p =>
        if p + text.length > cellCount s.cfg then .next (t.respond (.err .writeText .textOverflow))
        else .next (t.start .writeText (writeSeq s.cfg s.seq.rs p text).1 (writePost s.cfg s.seq.rs p text s.seq.buf))

end Sys2Proof.Machine
end

