-- ==== Sys2Proof/Machine/Dispatch.lean ====
section
/-! DEFINITION. One arm per row of spec/opcode_table.json. -/

namespace Sys2Proof.Machine

def exec (i : Instr) (s : State) : Host.Outcome State Fault Refusal :=
  match i with
  | .clearDisplay => Sys2Proof.Machine.execClearDisplay s
  | .returnHome => Sys2Proof.Machine.execReturnHome s
  | .displayOnCursorOffBlinkOff => Sys2Proof.Machine.execDisplayOnCursorOffBlinkOff s
  | .displayOnCursorOffBlinkOn => Sys2Proof.Machine.execDisplayOnCursorOffBlinkOn s
  | .displayOnCursorOnBlinkOff => Sys2Proof.Machine.execDisplayOnCursorOnBlinkOff s
  | .displayOnCursorOnBlinkOn => Sys2Proof.Machine.execDisplayOnCursorOnBlinkOn s
  | .entryModeSet => Sys2Proof.Machine.execEntryModeSet s
  | .functionSet => Sys2Proof.Machine.execFunctionSet s
  | .cursorShiftLeft => Sys2Proof.Machine.execCursorShiftLeft s
  | .cursorShiftRight => Sys2Proof.Machine.execCursorShiftRight s
  | .setDdramAddress a => Sys2Proof.Machine.execSetDdramAddress a s
  | .dataWrite d => Sys2Proof.Machine.execDataWrite d s
  | .init => Sys2Proof.Machine.execInit s
  | .clear => Sys2Proof.Machine.execClear s
  | .setCursor col row => Sys2Proof.Machine.execSetCursor col row s
  | .writeText text => Sys2Proof.Machine.execWriteText text s
  | .selIr => Sys2Proof.Machine.execSelIr s
  | .selDr => Sys2Proof.Machine.execSelDr s
  | .tx b => Sys2Proof.Machine.execTx b s
  | .pulse => Sys2Proof.Machine.execPulse s
  | .waitShort => Sys2Proof.Machine.execWaitShort s
  | .waitLong => Sys2Proof.Machine.execWaitLong s

end Sys2Proof.Machine
end

