-- ==== Sys2Proof/Machine/Fetch.lean ====
section
/-! DEFINITION. Which agent moves next and what it runs, and placing an encoded instruction there (R77, R78, R103). -/

namespace Sys2Proof.Machine

/-- What the machine does next. -/
inductive Fetched where
  /-- Runs an instruction, in the state with the instruction taken from where it waited. -/
  | runs (i : Instr) (s : State)
  /-- Goes on to a state without an instruction. -/
  | goesOn (s : State)
  /-- Stops. -/
  | stops (f : Fault)

/-- The controller first, if a word from outside waits for it (log 1). -/
def State.fetchDevice (s : State) (w : DevWord) (ws : List DevWord) : Fetched :=
  let s1 : State := { s with bus := { s.bus with inbox := ws } }
  match decodeDevice w with
  | some d => .runs d.toInstr s1
  | none => .goesOn (s1.obeyUnlisted w)

/-- In Busy, the head of the pending list; the issue step removes it (R81). -/
def State.fetchPrim (s : State) : Fetched :=
  match s.seq.op, s.seq.pend with
  | some _, p :: _ => .runs p.toInstr s
  | _, _ => .stops .operationLost

/-- Outside Busy, the request at the port's head. With none no step is enabled (R77), and the answer is the state itself
(R78; log 27). -/
def State.fetchRequest (s : State) : Fetched :=
  match s.port with
  | q :: qs => .runs q.toInstr { s with port := qs }
  | [] => .goesOn s

def State.fetch (s : State) : Fetched :=
  match s.bus.inbox with
  | w :: ws => s.fetchDevice w ws
  | [] =>
    match s.seq.phase with
    | .busy => s.fetchPrim
    | .ready => s.fetchRequest
    | .desync => s.fetchRequest

/-- Places a word at the controller. -/
def State.placeWord (s : State) (w : DevWord) : State :=
  { s with bus := { s.bus with inbox := w :: s.bus.inbox } }

/-- Nothing waits for the controller. -/
def State.drained (s : State) : State := { s with bus := { s.bus with inbox := [] } }

/-- Places a primitive at the head of the pending list, entering Busy if need be. -/
def State.placePrim (s : State) (p : Prim) : State :=
  { s.drained with
    seq := { s.seq with phase := .busy, op := some (s.seq.op.getD .init), pend := p :: s.seq.pend.tail } }

/-- Places a request at the port's head; an operation in progress counts as completed, so that the port is open. -/
def State.placeRequest (s : State) (q : Request) : State :=
  let t : State := if s.seq.phase = .busy then { s with seq := s.seq.commit } else s
  { t.drained with port := q :: t.port }

/-- Places an encoded instruction where the machine fetches next; one the decoder refuses changes nothing. -/
def State.place (s : State) : Encoded → State
  | .dev w => s.placeWord w
  | .req r => s.placeRequest (decodeRequest r)
  | .prim w =>
    match decodePrim w with
    | .ok p => s.placePrim p
    | .error _ => s

end Sys2Proof.Machine
end

