-- ==== Sys2Proof/Machine/Step.lean ====
section
/-! DEFINITION. One step of the machine, and the placing of an instruction where it is fetched. -/

namespace Sys2Proof.Machine

/-- One step: an accept, or one call with its answer (R7, R77); a word put to the controller from outside goes first (log 1). -/
def step (s : State) : Host.Outcome State Fault Refusal :=
  match s.fetch with
  | .runs i s1 => exec i s1
  | .goesOn s1 => .next s1
  | .stops f => .fault f

def State.withFetchWord (s : State) (nbits w : Nat) : State :=
  match tableForm nbits w with
  | some e => s.place e
  | none => s

end Sys2Proof.Machine
end

