-- ==== Sys2Proof/Machine/Construct.lean ====
section
/-! DEFINITION. Construction: the checks in order, and the state they admit (R129 to R131). -/

namespace Sys2Proof.Machine

/-- Check 2 (R129). -/
def sizesPositive (c : Config) : Bool := decide (1 ≤ c.w) && decide (1 ≤ c.h)

/-- Check 3 (R129). -/
def basesFit (c : Config) : Bool := decide (c.h ≤ c.rowBase.length) && c.rowBase.all (fun b => decide (b < 0x80))

/-- The two-line-mode display ranges (R37, R129). -/
def displayAddr (a : Nat) : Bool := decide (a ≤ 0x27) || (decide (0x40 ≤ a) && decide (a ≤ 0x67))

/-- The addresses of all cells (R37). -/
def cellAddrs (c : Config) : List Nat := (List.range (cellCount c)).map (addrOf c)

/-- Check 4 (R129). -/
def addrsInRange (c : Config) : Bool := (cellAddrs c).all displayAddr

/-- Check 5 (R129): `addr` is injective. -/
def addrsDistinct (c : Config) : Bool := decide (cellAddrs c).Nodup

/-- The construction checks, the first failing one deciding (R129). -/
def checkConfig (c : Config) : Except ConfigError Unit :=
  if c.transportBound = false then .error .unboundTransport
  else if sizesPositive c = false then .error .invalidGeometry
  else if basesFit c = false then .error .invalidGeometry
  else if addrsInRange c = false then .error .invalidGeometry
  else if addrsDistinct c = false then .error .invalidGeometry
  else .ok ()

/-- Building an instance: an error and no state, or the reset state (R129 to R131). -/
def construct (c : Config) : Except ConfigError State :=
  match checkConfig c with
  | .error e => .error e
  | .ok () => .ok (State.ofConfig c)

end Sys2Proof.Machine
end

