-- ==== Sys2Proof/Machine/Outside.lean ====
section
/-! DEFINITION. What happens outside one instance: power loss (R116), and several instances on one
data bus (R125, R126, R138). None of it is a step of the machine (log 22, log 24). -/

namespace Sys2Proof.Machine

/-- The display loses power and comes back without an Init: nothing is known of the controller, and no word makes it known
before an Init is taken (R116, U7). DESIGN CHOICE (log 24): this is held as a violated contract, which leaves the controller
unspecified after every call until then. -/
def State.powerCycle (s : State) : State :=
  { s with bus := { s.bus with watch := .violation, inbox := [], dev := s.bus.dev.unspecified s.bus.draws,
                               draws := s.bus.draws + 1 } }

/-- Several instances on one data bus, each with its own register-select and enable lines and its own controller (R125).
DESIGN CHOICE (log 28): each reads the free values, its answers among them, at its own count, so that equal counts give equal
values; U5 leaves open how the answers of several instances relate. -/
structure Bench where
  instances : List State
  deriving DecidableEq, Repr

/-- The instance's next step is a call of its operation (R81). -/
def State.calls (s : State) : Bool :=
  match s.bus.inbox, s.seq.phase with
  | [], .busy => true
  | [], .ready => false
  | [], .desync => false
  | _ :: _, _ => false

def endsInCall (es : List Event) : Bool :=
  match es.getLast? with
  | some (.call _ _) => true
  | some (.req _) => false
  | some (.resp _) => false
  | none => false

/-- The instance is within an operation of which it has issued a primitive: its latest event is a call (R29). One that has
just accepted a request, or stands in S0, has issued none. -/
def State.midway (s : State) : Bool :=
  match s.seq.phase with
  | .busy => endsInCall s.seq.trace
  | .ready => false
  | .desync => false

/-- What another instance's transport holds after a call on the shared data bus: its byte is the one last presented. -/
def State.shareBus (other mover : State) : State :=
  { other with bus := { other.bus with line := { other.bus.line with bus := mover.bus.line.bus } } }

/-- After interleaved primitives the effect on the controller is unspecified (R111, R125, U16). -/
def State.interleaved (s : State) : State :=
  { s with bus := { s.bus with watch := .violation, dev := s.bus.dev.unspecified s.bus.draws, draws := s.bus.draws + 1 } }

/-- An instance after another's call: it is interleaved if it was midway (R125). -/
def State.beside (other mover : State) : State :=
  if other.midway then (other.shareBus mover).interleaved else other.shareBus mover

/-- The mover after its call: it is interleaved if another instance was midway (R125). -/
def State.among (mover : State) (others : List State) : State :=
  if others.any State.midway then mover.interleaved else mover

/-- The list with `t` at a place and `f` done at every other. -/
def moveAt (f : State → State) (t : State) : Nat → List State → List State
  | _, [] => []
  | 0, _ :: us => t :: us.map f
  | i + 1, u :: us => f u :: moveAt f t i us

/-- The instances after the one at `i` went on from `s` to `t`. -/
def Bench.moved (b : Bench) (i : Nat) (s t : State) : Bench :=
  if s.calls then { instances := moveAt (fun u => u.beside t) (t.among (b.instances.eraseIdx i)) i b.instances }
  else { instances := moveAt id t i b.instances }

/-- The host lets the instance at `i` take a step. Where there is none no step is enabled, and the answer is the bench itself
(log 22). -/
def Bench.step (b : Bench) (i : Nat) : Host.Outcome Bench Fault Refusal :=
  match b.instances[i]? with
  | none => .next b
  | some s =>
    match Machine.step s with
    | .next t => .next (b.moved i s t)
    | .fault f => .fault f
    | .refused r => .refused r

end Sys2Proof.Machine
end

