-- ==== Sys2Proof/Machine/Timing.lean ====
section
/-! DEFINITION. Lower bounds on durations (R100, R142). No step depends on them (R10, log 21). -/

namespace Sys2Proof.Machine

/-- The least duration of a call, in microseconds; only a wait takes time (R7, R100). -/
def minTimeOf (c : Config) : Prim → Nat
  | .wait .short => c.tShort
  | .wait .long => c.tLong
  | _ => 0

/-- The least duration of a primitive list (R142). -/
def minTime (c : Config) (ps : List Prim) : Nat := (ps.map (minTimeOf c)).sum

end Sys2Proof.Machine
end

