-- ==== Sys2Proof/Safety.lean ====
section
/-! DEFINITION. What a good state is: the reachable-state facts (R31), the met contract (R110), the mirror property (R34),
and the counts and relations the statements use. -/

namespace Sys2Proof.Machine

/-- A configuration that construction admits (R129). -/
abbrev Admitted (c : Config) : Prop := checkConfig c = .ok ()

/-- What R8 to R11 ask of the parameters: construction admits them, and the short delay is not above the long one (R10). -/
structure ValidConfig (c : Config) : Prop where
  admitted : Admitted c
  ordered : c.tShort ≤ c.tLong

/-- R31 for a Ready state; no cell is unknown once an Init has completed (R83). -/
structure Seq.ReadyFacts (c : Config) (S : Seq) : Prop where
  cursor : ∃ q, S.cur = some q ∧ q ≤ cellCount c
  shadow : S.rs ≠ .unknown
  nothingPending : S.pend = []
  noOperation : S.op = none
  cellsKnown : ∀ x ∈ S.buf, x ≠ .unknown

/-- R31 for a Busy state, with what its post must satisfy to become a Ready state. -/
structure Seq.BusyFacts (c : Config) (S : Seq) : Prop where
  operation : ∃ t, S.op = some t
  pending : S.pend ≠ []
  postShadow : S.post.rs ≠ .unknown
  postCursor : S.post.cur ≤ cellCount c
  postSize : S.post.buf.length = cellCount c
  postCellsKnown : ∀ x ∈ S.post.buf, x ≠ .unknown

/-- R31 for a Desync state. -/
structure Seq.DesyncFacts (S : Seq) : Prop where
  cursor : S.cur = none
  shadow : S.rs = .unknown
  cellsUnknown : ∀ x ∈ S.buf, x = .unknown
  nothingPending : S.pend = []
  noOperation : S.op = none

/-- What holds of the sequencer in its phase (R26, R31). -/
structure Seq.Coherent (c : Config) (S : Seq) : Prop where
  size : S.buf.length = cellCount c
  cursorRange : ∀ q, S.cur = some q → q ≤ cellCount c
  ready : S.phase = .ready → S.ReadyFacts c
  busy : S.phase = .busy → S.BusyFacts c
  desync : S.phase = .desync → S.DesyncFacts

/-- Where the checker of R109 stands over the trace, by phase; in Busy, where it will stand when the pending calls have
been answered Ok (R110). -/
def Seq.ContractMet (S : Seq) : Prop :=
  match S.phase with
  | .ready => checkTrace S.trace = .running S.rs .idle
  | .busy => (checkTrace S.trace).onPrims S.pend = .running S.post.rs .idle
  | .desync => checkTrace S.trace = .running .unknown .idle

/-- The bus after these calls, all answered Ok. -/
def Bus.replay (b : Bus) (ps : List Prim) : Bus := ps.foldl (fun b p => b.call p .ok) b

/-- The counter at each pulse on the data register among these calls, all answered Ok: where the device stores (R37). -/
def Bus.storesAt (b : Bus) : List Prim → List Addr
  | [] => []
  | p :: ps => (if p = .pulse ∧ b.line.rs = .known .dr then [b.dev.ac] else []) ++ (b.call p .ok).storesAt ps

/-- The device agrees with a shadow, a cursor and a buffer (R34); what it shows is its display memory, since the display is on
and not shifted (R3; log 12). -/
structure Mirrors (c : Config) (rs : RsShadow) (cur : Nat) (buf : List Cell) (b : Bus) : Prop where
  contract : b.watch = .running rs .idle
  line : b.line.rs = rs
  twoLines : b.dev.twoLines = true
  increment : b.dev.increment = true
  displayOn : b.dev.displayOn = true
  shiftOnWrite : b.dev.shiftOnWrite = false
  notShifted : b.dev.displayShift = 0
  onCell : cur < cellCount c → b.dev.ac.toNat = addrOf c cur
  atEnd : cur = cellCount c → b.dev.ac = nextAddr true 0 (addrOperand c (cellCount c - 1))
  shown : ∀ q < cellCount c, bufRead q buf ≠ .unknown → b.dev.ddram.read (addrOf c q) = bufRead q buf

/-- R34 as an invariant: nothing waits for the controller from outside; a clear leaves the counter at cell 0 (log 20); in
Ready the device agrees with S; in Busy it will agree with the post once the pending calls have been answered Ok, and
before the operation's first call the checker is idle; in Desync only the contract is asked for. -/
def State.MirrorKept (s : State) : Prop :=
  s.bus.inbox = [] ∧ s.bus.dev.clearAddr = addrOperand s.cfg 0 ∧
  match s.seq.phase with
  | .ready => ∀ q, s.seq.cur = some q → Mirrors s.cfg s.seq.rs q s.seq.buf s.bus
  | .busy => (s.midway = false → ∃ l, s.bus.watch = .running l .idle) ∧
    Mirrors s.cfg s.seq.post.rs s.seq.post.cur s.seq.post.buf (s.bus.replay s.seq.pend)
  | .desync => s.bus.watch = .running .unknown .idle

def isRequest : Event → Bool
  | .req _ => true
  | .call _ _ => false
  | .resp _ => false

def isResponse : Event → Bool
  | .req _ => false
  | .call _ _ => false
  | .resp _ => true

def isBusy : Phase → Bool
  | .busy => true
  | .ready => false
  | .desync => false

def isCall : Event → Bool
  | .req _ => false
  | .call _ _ => true
  | .resp _ => false

/-- One response for every request taken and for the reset-time Init, the one in progress still to come (R113). -/
def Seq.Answered (S : Seq) : Prop :=
  S.trace.countP isResponse + (if isBusy S.phase then 1 else 0) = S.trace.countP isRequest + 1

/-- The state with another trace (R29). -/
def State.withTrace (s : State) (es : List Event) : State := { s with seq := { s.seq with trace := es } }

/-- The number of row ends among the characters at `p .. p+n-1` that are not the last cell (k of R92). -/
def rowEnds (c : Config) (p n : Nat) : Nat := (List.range n).countP fun i => endsRow c (p + i)

/-- The byte of a data word in a latch stream. -/
def dataByte : Option DevWord → Option Byte
  | some w => if w.getLsbD 8 then some (w.extractLsb' 0 8) else none
  | none => none

/-- 1 if a condition holds, else 0 (the bracket of R92). -/
def bracket (b : Bool) : Nat := if b then 1 else 0

/-- The primitive is the sequencer's next call (R81). -/
abbrev State.Issues (s : State) (t : OpTag) (p : Prim) (rest : List Prim) : Prop :=
  s.seq.phase = .busy ∧ s.seq.op = some t ∧ s.seq.pend = p :: rest

/-- Where a transport call takes the bus's checker: by R109 if it is the sequencer's own, to Violation if it was made past the
sequencer (R116, U7; log 24). -/
def State.CheckedAs (s t : State) (p : Prim) : Prop :=
  (∀ op rest, s.Issues op p rest → t.bus.watch = s.bus.watch.onCall p (s.bus.answerTo p)) ∧
  ((∀ op rest, ¬ s.Issues op p rest) → t.bus.watch = .violation)

/-- Nothing is known of the display (R111, U7), in the form log 14 gives that. -/
def Bus.Unspecified (b : Bus) : Prop := b.watch = .violation ∧ ∀ a : Nat, b.dev.ddram.read a = .unknown

end Sys2Proof.Machine
end

