-- ==== Sys2Proof/WellFormed.lean ====
section
/-! DEFINITION. Canonical encoded forms. An `Instr` is a value of a closed enumeration whose operands carry their own
ranges, so none is ill-formed (R54, R57, R74); what can be ill-formed is a word or a record. -/

namespace Sys2Proof

/-- The don't-care bits of a device word's class, the position of its highest 1 bit below RS (R49). -/
def devDontCare (w : DevWord) : DevWord :=
  if w.getLsbD 8 then 0
  else if w.getLsbD 7 then 0
  else if w.getLsbD 6 then 0
  else if w.getLsbD 5 then 0x003
  else if w.getLsbD 4 then 0x003
  else if w.getLsbD 3 then 0
  else if w.getLsbD 2 then 0
  else if w.getLsbD 1 then 0x001
  else 0

/-- Check 1: don't-care bits are 0, as the encoder emits them (R49, D33). -/
def Encoded.dontCareBitsZero : Encoded → Bool
  | .dev w => w &&& devDontCare w == 0
  | .req _ => true
  | .prim _ => true

/-- Check 2: the record fields the tag does not read hold 0 and the empty list. DESIGN CHOICE (log 32): R54 says only that they
are not read; this is what the model's encoder writes there, and no decoding asks it. -/
def Encoded.unreadFieldsEmpty : Encoded → Bool
  | .dev _ => true
  | .req r =>
    if r.tag = 0b10 then r.text == []
    else if r.tag = 0b11 then r.col == 0 && r.row == 0
    else r.col == 0 && r.row == 0 && r.text == []
  | .prim _ => true

/-- The form the encoder gives: both checks hold. -/
def Encoded.wellFormed (e : Encoded) : Bool :=
  e.dontCareBitsZero && e.unreadFieldsEmpty

end Sys2Proof
end

