-- ==== Sys2Proof/Certificates/Slice0/Obligations.lean ====
section
/-! DEFINITION. The statements for the provers. -/

open Sys2Proof Sys2Proof.Machine

/-! ### Encoding -/

/-- R61 to R72: the register, byte and delay class of every encoder input. -/
def Obligations.EncoderGivesTheTableBytes : Prop :=
  enc .clearDisplay = ⟨.ir, 0x01, .long⟩ ∧ enc .returnHome = ⟨.ir, 0x02, .long⟩ ∧
  enc (.displayOn false false) = ⟨.ir, 0x0C, .short⟩ ∧ enc (.displayOn false true) = ⟨.ir, 0x0D, .short⟩ ∧
  enc (.displayOn true false) = ⟨.ir, 0x0E, .short⟩ ∧ enc (.displayOn true true) = ⟨.ir, 0x0F, .short⟩ ∧
  enc .entryModeSet = ⟨.ir, 0x06, .short⟩ ∧ enc .functionSet = ⟨.ir, 0x38, .short⟩ ∧
  enc .cursorShiftLeft = ⟨.ir, 0x10, .short⟩ ∧ enc .cursorShiftRight = ⟨.ir, 0x14, .short⟩ ∧
  (∀ a : Addr, (enc (.setDdramAddress a)).reg = .ir ∧ (enc (.setDdramAddress a)).byte.toNat = 0x80 + a.toNat ∧
    (enc (.setDdramAddress a)).d = .short) ∧
  (∀ b : Byte, enc (.data b) = ⟨.dr, b, .short⟩)

/-- R73: which words are Long-class, and that the encoder's class is the word's. -/
def Obligations.DelayClassMatchesWord : Prop :=
  (∀ b : Byte, delayOf .ir b = .long ↔ b = 0x01 ∨ b = 0x02 ∨ b = 0x03) ∧
  (∀ b : Byte, delayOf .dr b = .short) ∧
  (∀ i : DevInstr, (enc i).d = delayOf (enc i).reg (enc i).byte)

/-- Decoding an encoded instruction gives it back, for every instruction and every operand. -/
def Obligations.DecodeOfEncodeIsIdentity : Prop := ∀ i : Instr, decode (encode i) = .ok i

/-- The other direction, on canonical forms: don't-care bits 0 (R49), and 0 or the empty list in the record fields a tag does
not read. R54 says only that they are not read; what a canonical record holds there is the model's choice (log 32). -/
def Obligations.EncodeOfDecodeIsIdentity : Prop :=
  ∀ (e : Encoded) (i : Instr), e.wellFormed = true → decode e = .ok i → encode i = e

/-- R55 to R57: reserved primitive codes and response status values are refused, every response is read back. -/
def Obligations.ReservedCodesRefused : Prop :=
  (∀ w : CallWord, 0x600 ≤ w.toNat → decodePrim w = .error .reservedPrimCode) ∧
  (∀ (t : BitVec 2) (k : BitVec 3), 5 ≤ k.toNat → decodeResponse t k = .error .reservedStatus) ∧
  (∀ r : Response, decodeResponse (encodeResponse r).1 (encodeResponse r).2 = .ok r)

/-- Words written from the spec's encodings decode to the instruction they stand for; don't-care bits are ignored. -/
def Obligations.SpecWordsDecode : Prop :=
  decode (.dev 0b000000001) = .ok .clearDisplay ∧ decode (.dev 0b000000011) = .ok .returnHome ∧
  decode (.dev 0b000111010) = .ok .functionSet ∧ decode (.dev 0b000010111) = .ok .cursorShiftRight ∧
  decode (.dev 0b011000000) = .ok (.setDdramAddress 0x40) ∧ decode (.dev 0b101000001) = .ok (.dataWrite 0x41) ∧
  decode (.dev 0b001000000) = .error .unlistedDeviceWord ∧
  decode (.req ⟨0b10, 3, 1, []⟩) = .ok (.setCursor 3 1) ∧ decode (.prim 0b01000111000) = .ok (.tx 0x38) ∧
  decode (.prim 0b10100000000) = .ok .waitLong

/-! ### Steps run decoded instructions -/

/-- A step runs the instruction decoded from the word put to the controller from outside (that it goes first is the
model's choice, log 1), from the head of the pending list or from the request at the port, each taken from where it waited
(R7, R77, R81). Where none of these waits no step is enabled, and the answer is the state itself (log 27). -/
def Obligations.StepRunsDecodedInstruction : Prop :=
  (∀ (s : State) (w : DevWord) (ws : List DevWord) (i : Instr),
    s.bus.inbox = w :: ws → decode (.dev w) = .ok i →
    step s = exec i { s with bus := { s.bus with inbox := ws } }) ∧
  (∀ (s : State) (t : OpTag) (p : Prim) (rest : List Prim) (w : CallWord) (i : Instr),
    s.bus.inbox = [] → s.Issues t p rest → decodePrim w = .ok p → decode (.prim w) = .ok i → step s = exec i s) ∧
  (∀ (s : State) (q : Request) (qs : List Request) (r : ReqRecord) (i : Instr),
    s.bus.inbox = [] → s.seq.phase ≠ .busy → s.port = q :: qs → decodeRequest r = q → decode (.req r) = .ok i →
    step s = exec i { s with port := qs }) ∧
  (∀ s : State, s.bus.inbox = [] → s.seq.phase ≠ .busy → s.port = [] → step s = .next s)

/-- An encoded instruction that the decoder accepts, placed in any state, is what the next fetch runs. -/
def Obligations.PlacedInstructionIsFetched : Prop :=
  ∀ (s : State) (e : Encoded) (i : Instr), decode e = .ok i → ∃ s1, (s.place e).fetch = .runs i s1

/-! ### Construction and reset -/

/-- R129, R130: the construction checks in order, and the result. -/
def Obligations.ConstructionChecksInOrder : Prop :=
  ∀ c : Config,
    (c.transportBound = false → construct c = .error .unboundTransport) ∧
    (c.transportBound = true →
      ¬ ((1 ≤ c.w ∧ 1 ≤ c.h) ∧ (c.h ≤ c.rowBase.length ∧ ∀ b ∈ c.rowBase, b < 0x80) ∧
         (∀ q < c.w * c.h, addrOf c q ≤ 0x27 ∨ (0x40 ≤ addrOf c q ∧ addrOf c q ≤ 0x67)) ∧
         (∀ q < c.w * c.h, ∀ r < c.w * c.h, addrOf c q = addrOf c r → q = r)) →
      construct c = .error .invalidGeometry) ∧
    (c.transportBound = true → (1 ≤ c.w ∧ 1 ≤ c.h) → (c.h ≤ c.rowBase.length ∧ ∀ b ∈ c.rowBase, b < 0x80) →
      (∀ q < c.w * c.h, addrOf c q ≤ 0x27 ∨ (0x40 ≤ addrOf c q ∧ addrOf c q ≤ 0x67)) →
      (∀ q < c.w * c.h, ∀ r < c.w * c.h, addrOf c q = addrOf c r → q = r) →
      construct c = .ok (State.ofConfig c))

/-- R129's consequences: at most 40 columns, at most 80 cells. -/
def Obligations.ValidGeometryIsSmall : Prop := ∀ c : Config, Admitted c → c.w ≤ 40 ∧ c.w * c.h ≤ 80

/-- R52: in a valid configuration the set-DDRAM byte of a cell is 0x80 plus its address, so two cells never share one. -/
def Obligations.CellAddressBytesAreExact : Prop :=
  ∀ c : Config, Admitted c → ∀ q < c.w * c.h,
    (setDdramByte (addrOperand c q)).toNat = 0x80 + addrOf c q ∧
    ∀ r < c.w * c.h, setDdramByte (addrOperand c q) = setDdramByte (addrOperand c r) → q = r

/-- R131: construction gives S0, whose first primitive is SEL_IR, with no event recorded. -/
def Obligations.ConstructionGivesS0 : Prop :=
  construct Config.standard = .ok State.reset ∧
  ∀ (c : Config) (s : State), construct c = .ok s →
    s.cfg = c ∧
    s.seq = { phase := .busy, op := some .init, pend := initSeq .unknown,
              post := { rs := .known .ir, cur := 0, buf := List.replicate (c.w * c.h) .blank },
              rs := .unknown, cur := none, buf := List.replicate (c.w * c.h) .unknown, last := none, trace := [] } ∧
    s.seq.pend.head? = some .selIr ∧
    s.bus.line = { rs := .unknown, bus := none }

/-- R132: the reset-time Init, all calls answered Ok (13 steps, one for each call) or the one after `k` of the transport's
nine calls answered Fail. -/
def Obligations.FirstInitEndsAsStated : Prop :=
  ∀ c : Config,
    (∃ t, core.run 13 { State.ofConfig c with bus := { Bus.reset c with answers := List.replicate 9 .ok } } = .next t ∧
      t.seq.phase = .ready ∧ t.seq.rs = .known .ir ∧ t.seq.cur = some 0 ∧
      (Admitted c → t.cursorView = .at 0 0) ∧
      t.seq.buf = List.replicate (c.w * c.h) .blank ∧ t.seq.last = some (.done .init) ∧
      t.seq.trace = (initSeq .unknown).map (fun p => .call p .ok) ++ [.resp (.done .init)] ∧
      (initSeq .unknown).length = 13) ∧
    (∀ k < 9, ∃ n t, n ≤ 13 ∧
      core.run n { State.ofConfig c with bus := { Bus.reset c with answers := List.replicate k .ok ++ [.fail] } } = .next t ∧
      t.seq.phase = .desync ∧ t.seq.last = some (.err .init .transportError))

/-! ### Device words -/

/-- R33, R60: every device word completes in every state and leaves the sequencer, the port, the line, the checker and the
answers as they were; under a violated contract nothing is known of the controller afterwards (R111; log 14, the model's
choice). That a word executed so completes in every state, also right after a pulse that has not settled, and leaves the
checker as it was is the model's choice (log 25). -/
def Obligations.DeviceWordsLeaveTheSequencer : Prop :=
  ∀ (s : State) (d : DevInstr), ∃ t, exec d.toInstr s = .next t ∧
    t.cfg = s.cfg ∧ t.seq = s.seq ∧ t.port = s.port ∧ t.bus.line = s.bus.line ∧ t.bus.watch = s.bus.watch ∧
    t.bus.inbox = s.bus.inbox ∧ t.bus.answers = s.bus.answers ∧
    (s.bus.watch = .violation → ∀ a : Nat, t.bus.dev.ddram.read a = .unknown)

/-- R61, R105, R34: the clear word fills the display memory with the blank character and returns the counter to cell (0,0).
That this is the address of cell 0 in every admitted configuration, and so the 0 of R105 where the first row starts at 0, as
by default, is the model's reading (log 20). It stays so in every step. That a clear undoes a display shift is the model's
reading too (log 12). That the word is obeyed at once, also right after a pulse that has not settled, where R105 says the
device needs its delay, is the model's choice (log 25). -/
def Obligations.ClearWordBlanksTheDisplay : Prop :=
  (∀ s : State, s.bus.watch ≠ .violation → ∃ m : Ddram,
    exec .clearDisplay s =
      .next { s with bus := { s.bus with
        dev := { s.bus.dev with ac := s.bus.dev.clearAddr, ddram := m, displayShift := 0 }
        draws := s.bus.draws + 1 } } ∧
    ∀ a : Nat, m.read a = .blank) ∧
  State.reset.bus.dev.clearAddr = 0 ∧
  (∀ c : Config, Admitted c → (State.ofConfig c).bus.dev.clearAddr.toNat = addrOf c 0) ∧
  (∀ s t : State, step s = .next t → t.bus.dev.clearAddr = s.bus.dev.clearAddr)

/-- R71, R105: the set-DDRAM-address word sets the counter and nothing else. That the word is obeyed at once, also right
after a pulse that has not settled, where R105 says the device needs its delay, is the model's choice (log 25). -/
def Obligations.SetAddressWordSetsTheCounter : Prop :=
  ∀ (s : State) (a : Addr), s.bus.watch ≠ .violation →
    exec (.setDdramAddress a) s =
      .next { s with bus := { s.bus with dev := { s.bus.dev with ac := a }, draws := s.bus.draws + 1 } }

/-- R72, R105, R34, R50: the data word stores its byte at the counter, leaves every other address alone, and then steps the
counter. With I/D = 1 it is one on, in two-line mode 0x40 after 0x27 and 0x00 after 0x67 (R34). That it is one on at those
addresses in one-line mode too, and everywhere else below 0x7F, is the model's reading (log 11). With I/D = 0 it is one back
(R50; that a data word then steps back although R105 says increments is the model's reading, log 12). With S = 1 the display
is shifted (R50), by one cell to either side (that it is one cell is the model's reading, and the side a free value, log 12).
That the word is obeyed at once, also right after a pulse that has not settled, where R105 says the device needs its delay,
is the model's choice (log 25). -/
def Obligations.DataWordStoresAndSteps : Prop :=
  ∀ (s : State) (b : Byte), s.bus.watch ≠ .violation → ∃ (m : Ddram) (n : Addr) (k : Int),
    exec (.dataWrite b) s =
      .next { s with bus := { s.bus with
        dev := { s.bus.dev with ac := n, ddram := m, displayShift := k }
        draws := s.bus.draws + 1 } } ∧
    (s.bus.dev.shiftOnWrite = false → k = s.bus.dev.displayShift) ∧
    (s.bus.dev.shiftOnWrite = true → k = s.bus.dev.displayShift + 1 ∨ k = s.bus.dev.displayShift - 1) ∧
    m.read s.bus.dev.ac.toNat = .char b ∧
    (∀ a : Nat, a ≠ s.bus.dev.ac.toNat → m.read a = s.bus.dev.ddram.read a) ∧
    (s.bus.dev.increment = true →
      (s.bus.dev.twoLines = true → (s.bus.dev.ac = 0x27 → n = 0x40) ∧ (s.bus.dev.ac = 0x67 → n = 0x00)) ∧
      (s.bus.dev.twoLines = false ∨ (s.bus.dev.ac ≠ 0x27 ∧ s.bus.dev.ac ≠ 0x67) →
        s.bus.dev.ac ≠ 0x7F → n = s.bus.dev.ac + 1)) ∧
    (s.bus.dev.increment = false →
      s.bus.dev.twoLines = false ∨ s.bus.dev.ac ≠ 0x40 → s.bus.dev.ac ≠ 0x00 → n = s.bus.dev.ac - 1)

/-- R50, R63 to R68, R105: the six configuration words set their fields and nothing else. R49, R50: so does every word of
their classes, row of the table or not, and a display-shift word shifts the display (that this is what a word that is no row
does, and that a shift is by one cell, are the model's readings, log 13 and log 12). That the six words are obeyed at once,
also right after a pulse that has not settled, where R105 says the device needs its delay, is the model's choice (log 25). -/
def Obligations.ConfigurationWordsSetTheirFields : Prop :=
  (∀ (d : Device) (w : DevWord) (n : Nat),
    (0x20 ≤ w.toNat → w.toNat < 0x40 →
      d.receive w n = { d with dataLen8 := w.getLsbD 4, twoLines := w.getLsbD 3, font5x10 := w.getLsbD 2 }) ∧
    (0x18 ≤ w.toNat → w.toNat < 0x20 →
      d.receive w n = { d with displayShift := if w.getLsbD 2 then d.displayShift + 1 else d.displayShift - 1 }) ∧
    (0x08 ≤ w.toNat → w.toNat < 0x10 →
      d.receive w n = { d with displayOn := w.getLsbD 2, cursorOn := w.getLsbD 1, blinkOn := w.getLsbD 0 }) ∧
    (0x04 ≤ w.toNat → w.toNat < 0x08 →
      d.receive w n = { d with increment := w.getLsbD 1, shiftOnWrite := w.getLsbD 0 })) ∧
  ∀ s : State, s.bus.watch ≠ .violation →
    let put := fun d : Device => ({ s with bus := { s.bus with dev := d, draws := s.bus.draws + 1 } } : State)
    let d := s.bus.dev
    exec .displayOnCursorOffBlinkOff s = .next (put { d with displayOn := true, cursorOn := false, blinkOn := false }) ∧
    exec .displayOnCursorOffBlinkOn s = .next (put { d with displayOn := true, cursorOn := false, blinkOn := true }) ∧
    exec .displayOnCursorOnBlinkOff s = .next (put { d with displayOn := true, cursorOn := true, blinkOn := false }) ∧
    exec .displayOnCursorOnBlinkOn s = .next (put { d with displayOn := true, cursorOn := true, blinkOn := true }) ∧
    exec .entryModeSet s = .next (put { d with increment := true, shiftOnWrite := false }) ∧
    exec .functionSet s = .next (put { d with dataLen8 := true, twoLines := true, font5x10 := false })

/-- R50, R62, R69, R70: return home and the cursor shifts change the address counter only, return home the display shift too.
R62 states no effect of return home: that it leaves display memory and configuration alone is the model's presumption, and
its counter and display shift are free values (log 10). That a shift moves the counter by one cell, and where it wraps, is
the model's reading (log 11). That the word is obeyed at once, also right after a pulse that has not settled, where R105 says
the device needs its delay, is the model's choice (log 25). -/
def Obligations.CursorShiftsMoveCounterHomeAlsoDisplayShift : Prop :=
  ∀ s : State, s.bus.watch ≠ .violation →
    let put := fun n : Addr =>
      ({ s with bus := { s.bus with dev := { s.bus.dev with ac := n }, draws := s.bus.draws + 1 } } : State)
    let ac := s.bus.dev.ac
    (∃ n k, exec .returnHome s = .next { s with bus := { s.bus with
      dev := { s.bus.dev with ac := n, displayShift := k }, draws := s.bus.draws + 1 } }) ∧
    (∃ n, exec .cursorShiftRight s = .next (put n) ∧
      (s.bus.dev.twoLines = true → (ac = 0x27 → n = 0x40) ∧ (ac = 0x67 → n = 0x00)) ∧
      (s.bus.dev.twoLines = false ∨ (ac ≠ 0x27 ∧ ac ≠ 0x67) → ac ≠ 0x7F → n = ac + 1)) ∧
    (∃ n, exec .cursorShiftLeft s = .next (put n) ∧
      (s.bus.dev.twoLines = false ∨ ac ≠ 0x40 → ac ≠ 0x00 → n = ac - 1))

/-! ### Primitives -/

/-- R96, R97, R98, R42, R104: the effect of the selects and of transmit-byte on the line, for either answer; the device
sees nothing, unless the call violates the contract (R111) or is made past the sequencer (R116, U7). -/
def Obligations.SelectsAndByteChangeOnlyTheLine : Prop :=
  ∀ (s : State) (b : Byte),
    (∃ t, exec .selIr s = .next t ∧ t.cfg = s.cfg ∧ t.port = s.port ∧ t.bus.inbox = s.bus.inbox ∧
      (t.bus.watch ≠ .violation → t.bus.dev = s.bus.dev) ∧
      s.CheckedAs t .selIr ∧ t.bus.answers = s.bus.answers.tail ∧
      (s.bus.nextAnswer = .ok → t.bus.line = { s.bus.line with rs := .known .ir }) ∧
      (s.bus.nextAnswer = .fail → t.bus.line = { rs := .unknown, bus := none })) ∧
    (∃ t, exec .selDr s = .next t ∧ t.cfg = s.cfg ∧ t.port = s.port ∧ t.bus.inbox = s.bus.inbox ∧
      (t.bus.watch ≠ .violation → t.bus.dev = s.bus.dev) ∧
      s.CheckedAs t .selDr ∧ t.bus.answers = s.bus.answers.tail ∧
      (s.bus.nextAnswer = .ok → t.bus.line = { s.bus.line with rs := .known .dr }) ∧
      (s.bus.nextAnswer = .fail → t.bus.line = { rs := .unknown, bus := none })) ∧
    (∃ t, exec (.tx b) s = .next t ∧ t.cfg = s.cfg ∧ t.port = s.port ∧ t.bus.inbox = s.bus.inbox ∧
      (t.bus.watch ≠ .violation → t.bus.dev = s.bus.dev) ∧
      s.CheckedAs t (.tx b) ∧ t.bus.answers = s.bus.answers.tail ∧
      (s.bus.nextAnswer = .ok → t.bus.line = { s.bus.line with bus := some b }) ∧
      (s.bus.nextAnswer = .fail → t.bus.line = { rs := .unknown, bus := none }))

/-- R42, R99, R103, R104: a pulse answered Ok leaves the line, and the controller receives exactly one word, the line's if it
is known; a failed pulse leaves the line unknown, and the controller receives at most one word. A pulse that violates the
contract or is made past the sequencer (U7) leaves every address of the display memory unknown (R111; the form of an
unspecified controller is log 14's). -/
def Obligations.PulseLatchesOneWord : Prop :=
  ∀ s : State, ∃ t, exec .pulse s = .next t ∧ t.cfg = s.cfg ∧ t.port = s.port ∧ t.bus.inbox = s.bus.inbox ∧
    s.CheckedAs t .pulse ∧ t.bus.answers = s.bus.answers.tail ∧
    (s.bus.nextAnswer = .ok → t.bus.line = s.bus.line) ∧
    (s.bus.nextAnswer = .fail → t.bus.line = { rs := .unknown, bus := none }) ∧
    (t.bus.watch ≠ .violation → s.bus.nextAnswer = .ok →
      ∃ w n, t.bus.dev = s.bus.dev.receive w n ∧
        ∀ r b, s.bus.line = { rs := .known r, bus := some b } → w = deviceWord r b) ∧
    (t.bus.watch ≠ .violation → s.bus.nextAnswer = .fail →
      t.bus.dev = s.bus.dev ∨ ∃ w n, t.bus.dev = s.bus.dev.receive w n) ∧
    (t.bus.watch = .violation → ∀ a : Nat, t.bus.dev.ddram.read a = .unknown)

/-- R95, R100: a wait always answers Ok, asks the transport for no answer, and touches neither line nor device, unless it
violates the contract (R111); past the sequencer it touches nothing (log 7); as the sequencer's next call it is recorded with answer Ok, and its operation's Done with it if
it is the last. -/
def Obligations.WaitsAnswerOkAndTouchNothing : Prop :=
  ∀ (s : State) (d : DelayClass), ∃ t, exec (Prim.wait d).toInstr s = .next t ∧
    t.cfg = s.cfg ∧ t.port = s.port ∧ t.bus.line = s.bus.line ∧ t.bus.inbox = s.bus.inbox ∧
    (t.bus.watch ≠ .violation → t.bus.dev = s.bus.dev) ∧
    t.bus.answers = s.bus.answers ∧
    ((∀ op rest, ¬ s.Issues op (.wait d) rest) → t.seq = s.seq ∧ t.bus.watch = s.bus.watch ∧ t.bus.dev = s.bus.dev) ∧
    ∀ op rest, s.Issues op (.wait d) rest → t.bus.watch = s.bus.watch.onCall (.wait d) .ok ∧ t.seq.phase ≠ .desync ∧
      t.seq.trace = s.seq.trace ++ .call (.wait d) .ok :: (if rest = [] then [.resp (.done op)] else [])

/-- R81: an issue step answered Ok that is not the operation's last removes the primitive and records the call; S is
otherwise unchanged. -/
def Obligations.IssueOkAdvancesTheList : Prop :=
  ∀ (s : State) (op : OpTag) (p p' : Prim) (rest : List Prim), s.Issues op p (p' :: rest) → s.bus.answerTo p = .ok →
    ∃ t, exec p.toInstr s = .next t ∧ t.cfg = s.cfg ∧ t.port = s.port ∧
      t.seq = { s.seq with pend := p' :: rest, trace := s.seq.trace ++ [.call p .ok] }

/-- R81, R24: the issue step of the last primitive, answered Ok, commits the post, enters Ready and responds Done. That the
post then keeps its value is the model's choice (log 23). -/
def Obligations.LastIssueOkCommits : Prop :=
  ∀ (s : State) (op : OpTag) (p : Prim), s.Issues op p [] → s.bus.answerTo p = .ok →
    ∃ t, exec p.toInstr s = .next t ∧ t.cfg = s.cfg ∧ t.port = s.port ∧
      t.seq = { phase := .ready, op := none, pend := [], post := s.seq.post, rs := s.seq.post.rs,
                cur := some s.seq.post.cur, buf := s.seq.post.buf, last := some (.done op),
                trace := s.seq.trace ++ [.call p .ok, .resp (.done op)] }

/-- R114, R118: a failed call leaves exactly the Desync state, with the response TransportError and every remaining
primitive discarded. That the post, which R114 does not commit, keeps its value is the model's choice (log 23). -/
def Obligations.FailedCallEntersDesync : Prop :=
  ∀ (s : State) (op : OpTag) (p : Prim) (rest : List Prim), s.Issues op p rest → s.bus.answerTo p = .fail →
    ∃ t, exec p.toInstr s = .next t ∧ t.cfg = s.cfg ∧ t.port = s.port ∧
      t.seq = { phase := .desync, op := none, pend := [], post := s.seq.post, rs := .unknown, cur := none,
                buf := List.replicate (s.cfg.w * s.cfg.h) .unknown, last := some (.err op .transportError),
                trace := s.seq.trace ++ [.call p .fail, .resp (.err op .transportError)] }

/-- R116, U7: a call made past the sequencer, and a power loss, are not detected; its whole record is unchanged, the line
takes the call, and nothing is known of the display any more (its form is log 14's), but that a wait touches nothing (R100;
log 7). The operation `bypass` is such a call for every primitive, also one the sequencer was about to make. That exec of a
primitive which is not the pending head is such a call is the model's choice (log 7). -/
def Obligations.BypassLeavesTheSequencer : Prop :=
  ∀ (s : State) (p : Prim),
    ((s.bypass p).seq = s.seq ∧ (s.bypass p).cfg = s.cfg ∧ (s.bypass p).port = s.port ∧
      (s.bypass p).bus.line = s.bus.line.onCall p (s.bus.answerTo p) ∧
      ((∀ d, p ≠ .wait d) → (s.bypass p).bus.Unspecified) ∧
      (∀ d, p = .wait d → (s.bypass p).bus.dev = s.bus.dev ∧ (s.bypass p).bus.watch = s.bus.watch)) ∧
    (s.powerCycle.seq = s.seq ∧ s.powerCycle.cfg = s.cfg ∧ s.powerCycle.port = s.port ∧ s.powerCycle.bus.Unspecified) ∧
    ((∀ op rest, ¬ s.Issues op p rest) → exec p.toInstr s = .next (s.bypass p))

/-! ### Requests -/

/-- R80, R83: Init is accepted in Ready and in Desync and starts the four-instruction sequence, 12 primitives if the
shadow is Known(IR), else 13. That the bus's contract checker starts afresh with it, and the line with it, on the shadow, is
the model's reading of R116 and U7 (log 14, log 24). -/
def Obligations.InitStartsTheSequence : Prop :=
  ∀ s : State, s.seq.phase ≠ .busy →
    let four : List Prim :=
      [.tx 0x38, .pulse, .wait .short, .tx 0x0C, .pulse, .wait .short, .tx 0x06, .pulse, .wait .short,
       .tx 0x01, .pulse, .wait .long]
    exec .init s = .next { s with
      seq := { s.seq with
        phase := .busy, op := some .init, trace := s.seq.trace ++ [.req .init],
        pend := if s.seq.rs = .known .ir then four else .selIr :: four,
        post := { rs := .known .ir, cur := 0, buf := List.replicate (s.cfg.w * s.cfg.h) .blank } }
      bus := { s.bus with watch := .running s.seq.rs .idle, line := { s.bus.line with rs := s.seq.rs } } }

/-- R85: Clear in Ready starts one transfer of 0x01 with the long wait. -/
def Obligations.ClearStartsOneTransfer : Prop :=
  ∀ s : State, s.seq.phase = .ready →
    exec .clear s = .next { s with seq := { s.seq with
      phase := .busy, op := some .clear, trace := s.seq.trace ++ [.req .clear],
      pend := if s.seq.rs = .known .ir then [.tx 0x01, .pulse, .wait .long]
              else [.selIr, .tx 0x01, .pulse, .wait .long],
      post := { rs := .known .ir, cur := 0, buf := List.replicate (s.cfg.w * s.cfg.h) .blank } } }

/-- R86: SetCursor in range starts one set-DDRAM-address transfer, and will leave the buffer as it is. -/
def Obligations.SetCursorStartsOneTransfer : Prop :=
  ∀ (s : State) (col row : Nat), s.seq.phase = .ready → Admitted s.cfg → col < s.cfg.w → row < s.cfg.h →
    ∃ b : Byte, b.toNat = 0x80 + addrOf s.cfg (row * s.cfg.w + col) ∧
    exec (.setCursor col row) s = .next { s with seq := { s.seq with
      phase := .busy, op := some .setCursor, trace := s.seq.trace ++ [.req (.setCursor col row)],
      pend := if s.seq.rs = .known .ir then [.tx b, .pulse, .wait .short] else [.selIr, .tx b, .pulse, .wait .short],
      post := { rs := .known .ir, cur := row * s.cfg.w + col, buf := s.seq.buf } } }

/-- R87: an out-of-range SetCursor is rejected: only the last response and the trace change. -/
def Obligations.SetCursorOutOfRangeRejected : Prop :=
  ∀ (s : State) (col row : Nat), s.seq.phase = .ready → col ≥ s.cfg.w ∨ row ≥ s.cfg.h →
    exec (.setCursor col row) s = .next { s with seq := { s.seq with
      last := some (.err .setCursor .cursorOutOfRange),
      trace := s.seq.trace ++ [.req (.setCursor col row), .resp (.err .setCursor .cursorOutOfRange)] } }

/-- R88: a text that fits starts its transfers; the cursor will be past it, and the shadow Known(DR), or Known(IR) if
its last character ends a row other than the last. -/
def Obligations.WriteTextStarts : Prop :=
  ∀ (s : State) (p : Nat) (text : List Byte), s.seq.phase = .ready → s.seq.cur = some p → text ≠ [] →
    p + text.length ≤ s.cfg.w * s.cfg.h →
    ∃ t, exec (.writeText text) s = .next t ∧ t.cfg = s.cfg ∧ t.port = s.port ∧ t.bus = s.bus ∧
      t.seq = { s.seq with
        phase := .busy, op := some .writeText, trace := s.seq.trace ++ [.req (.writeText text)],
        pend := (writeSeq s.cfg s.seq.rs p text).1,
        post := { rs := if endsRow s.cfg (p + text.length - 1) then .known .ir else .known .dr,
                  cur := p + text.length, buf := bufWriteText p text s.seq.buf } } ∧
      t.seq.pend ≠ []

/-- R89: the empty WriteText is a no-op in every Ready state. -/
def Obligations.EmptyWriteTextIsNoOp : Prop :=
  ∀ s : State, s.seq.phase = .ready →
    exec (.writeText []) s = .next { s with seq := { s.seq with
      last := some (.done .writeText), trace := s.seq.trace ++ [.req (.writeText []), .resp (.done .writeText)] } }

/-- R90: a text past the last cell is rejected whole. -/
def Obligations.TextOverflowRejectedWhole : Prop :=
  ∀ (s : State) (p : Nat) (text : List Byte), s.seq.phase = .ready → s.seq.cur = some p → text ≠ [] →
    p + text.length > s.cfg.w * s.cfg.h →
    exec (.writeText text) s = .next { s with seq := { s.seq with
      last := some (.err .writeText .textOverflow),
      trace := s.seq.trace ++ [.req (.writeText text), .resp (.err .writeText .textOverflow)] } }

/-- R115, R117: in Desync every request but Init is answered Desynchronized whatever its operands, with nothing else
changed, and Init begins with SEL_IR. -/
def Obligations.DesyncAnswersOnlyInit : Prop :=
  ∀ s : State, s.seq.phase = .desync →
    (∀ q : Request, q ≠ .init → exec q.toInstr s = .next { s with seq := { s.seq with
      last := some (.err q.tag .desynchronized),
      trace := s.seq.trace ++ [.req q, .resp (.err q.tag .desynchronized)] } }) ∧
    (s.seq.rs = .unknown → ∃ t, exec .init s = .next t ∧ t.seq.phase = .busy ∧ t.seq.op = some .init ∧
      t.seq.pend.length = 13 ∧ t.seq.pend.head? = some .selIr)

/-- R78: in Busy no request is taken: it waits at the port, and no step takes one. -/
def Obligations.BusyHoldsRequests : Prop :=
  (∀ (s : State) (q : Request), s.seq.phase = .busy → exec q.toInstr s = .next { s with port := q :: s.port }) ∧
  (∀ s t : State, s.seq.phase = .busy → step s = .next t →
    t.port = s.port ∧ t.seq.trace.countP isRequest = s.seq.trace.countP isRequest)

/-- R80, R42: taking a request performs no call and changes neither shadow, cursor nor buffer. Only an Init touches the bus:
the contract checker starts afresh, on the shadow, and the line's register is taken to be the shadow (the model's reading, log
14, log 24). -/
def Obligations.RequestsLeaveBusAndTracker : Prop :=
  ∀ (s t : State) (q : Request), exec q.toInstr s = .next t →
    t.cfg = s.cfg ∧ t.seq.rs = s.seq.rs ∧ t.seq.cur = s.seq.cur ∧ t.seq.buf = s.seq.buf ∧
    t.bus = { s.bus with watch := t.bus.watch, line := t.bus.line } ∧ (q ≠ .init → t.bus = s.bus) ∧
    (s.bus.line.rs = s.seq.rs → t.bus.line = s.bus.line)

/-! ### What the expansions issue -/

/-- R84: Init issues exactly four IR words in the fixed order, each byte directly followed by its pulse; its one long wait
is its last primitive; no DR select occurs. -/
def Obligations.InitIssuesFourInstructions : Prop :=
  ∀ sh : RsShadow,
    latchStream { rs := sh, bus := none } (initSeq sh) = [some 0x038, some 0x00C, some 0x006, some 0x001] ∧
    initSeq sh = (if sh = .known .ir then [] else [.selIr]) ++
      [.tx 0x38, .pulse, .wait .short, .tx 0x0C, .pulse, .wait .short, .tx 0x06, .pulse, .wait .short,
       .tx 0x01, .pulse, .wait .long] ∧
    (initSeq sh).count (.wait .long) = 1 ∧ (initSeq sh).getLast? = some (.wait .long) ∧ .selDr ∉ initSeq sh

/-- R92: the number of primitives, pulses and waits of a text. -/
def Obligations.WriteTextPrimitiveCount : Prop :=
  ∀ (c : Config) (sh : RsShadow) (p : Nat) (text : List Byte), text ≠ [] →
    let n := text.length
    let k := rowEnds c p n
    let prims := (writeSeq c sh p text).1
    prims.length = 3 * n + bracket (sh != .known .dr) + 4 * k + rowEnds c p (n - 1) ∧
    prims.count .pulse = n + k ∧ prims.count (.wait .short) = n + k ∧ prims.count (.wait .long) = 0

/-- R91: every byte of the text is latched as a DR byte unchanged, in order, and takes one cell. -/
def Obligations.TextBytesPassUnchanged : Prop :=
  ∀ (c : Config) (sh : RsShadow) (p : Nat) (text : List Byte) (buf : List Cell),
    (latchStream { rs := sh, bus := none } (writeSeq c sh p text).1).filterMap dataByte = text ∧
    (p + text.length ≤ buf.length →
      ∀ (i : Nat) (h : i < text.length), bufRead (p + i) (bufWriteText p text buf) = .char text[i])

/-- R36, R47, R88: a text changes no cell outside its own, and not the number of cells. R37, R34: from a Ready state that
mirrors, in every admitted configuration, the device stores its bytes at the addresses of its cells, in order (after a clear
too: log 20). -/
def Obligations.WriteTextLeavesOtherCells : Prop :=
  (∀ (p : Nat) (text : List Byte) (buf : List Cell),
    (bufWriteText p text buf).length = buf.length ∧
    ∀ q : Nat, (q < p ∨ p + text.length ≤ q) → bufRead q (bufWriteText p text buf) = bufRead q buf) ∧
  (∀ (s t : State) (p : Nat) (text : List Byte), Admitted s.cfg → s.seq.Coherent s.cfg → s.MirrorKept →
    s.seq.phase = .ready → s.seq.cur = some p → exec (.writeText text) s = .next t → t.seq.phase = .busy →
    p + text.length ≤ s.cfg.w * s.cfg.h ∧
    (s.bus.storesAt t.seq.pend).map BitVec.toNat = (List.range text.length).map fun i => addrOf s.cfg (p + i))

/-- R57, R74, R110: every word an accepted request latches is known, and is a data word, one of the four constants, or
the address of a cell. R37: from a state that mirrors (log 20), the device is at the address of a cell at every data word. -/
def Obligations.OperationsLatchOnlyKnownWords : Prop :=
  ∀ (s t : State) (q : Request), s.seq.phase ≠ .busy → exec q.toInstr s = .next t → t.seq.phase = .busy →
    (Admitted s.cfg → s.seq.Coherent s.cfg → s.MirrorKept →
      ∀ a ∈ s.bus.storesAt t.seq.pend, ∃ x < s.cfg.w * s.cfg.h, a.toNat = addrOf s.cfg x) ∧
    ∀ w ∈ latchStream { rs := s.seq.rs, bus := none } t.seq.pend, ∃ v, w = some v ∧
      ((∃ b, v = deviceWord .dr b) ∨ v = 0x038 ∨ v = 0x00C ∨ v = 0x006 ∨ v = 0x001 ∨
       ∃ x < s.cfg.w * s.cfg.h, v = deviceWord .ir (setDdramByte (addrOperand s.cfg x)))

/-- R93: SetCursor and then a one-character text leave the cursor one cell on, on the next row, or at the end. -/
def Obligations.SetCursorThenOneCharacter : Prop :=
  ∀ (s : State) (col row : Nat), s.seq.phase = .ready → col < s.cfg.w → row < s.cfg.h →
    ∃ t, exec (.setCursor col row) s = .next t ∧
      ∀ (u : State) (x : Byte), u.cfg = s.cfg → u.seq.phase = .ready → u.seq.cur = some t.seq.post.cur →
        ∃ v, exec (.writeText [x]) u = .next v ∧ v.seq.phase = .busy ∧
          viewOf s.cfg (some v.seq.post.cur) =
            if col + 1 < s.cfg.w then .at (col + 1) row
            else if row + 1 < s.cfg.h then .at 0 (row + 1)
            else .past

/-- R142, R10: the waits of each operation, as a least duration; and in a valid configuration a wait of a longer class takes
at least as long. -/
def Obligations.LeastDurations : Prop :=
  (∀ (c : Config) (sh : RsShadow),
    minTime c (initSeq sh) = 3 * c.tShort + c.tLong ∧
    minTime c (clearSeq sh) = c.tLong ∧
    (∀ col row, minTime c (cursorSeq c sh col row) = c.tShort) ∧
    (∀ p text, minTime c (writeSeq c sh p text).1 = (text.length + rowEnds c p text.length) * c.tShort)) ∧
  (∀ c : Config, ValidConfig c → ∀ d1 d2 : DelayClass, delayReaches d1 d2 = true →
    minTimeOf c (.wait d2) ≤ minTimeOf c (.wait d1))

/-! ### Whole-machine rules -/

/-- Reset meets the invariants stated below, for every configuration; the canonical form of the display memory is the model's
own (log 9), and that a clear returns the counter to the address of cell 0 is the model's reading (log 20). That the display
is not shifted, a part of the mirror, rests after a clear on the model's reading that a clear undoes a display shift (log 12,
DEDUCED). -/
def Obligations.ResetMeetsTheInvariants : Prop :=
  ∀ c : Config,
    (State.ofConfig c).seq.Coherent c ∧ (State.ofConfig c).seq.ContractMet ∧ (State.ofConfig c).seq.Answered ∧
    (State.ofConfig c).bus.dev.ddram.wf = true ∧
    (Admitted c → (State.ofConfig c).MirrorKept)

/-- R26, R31: every step keeps the reachable-state facts of its phase. -/
def Obligations.StepKeepsCoherence : Prop :=
  ∀ s t : State, s.seq.Coherent s.cfg → step s = .next t → t.seq.Coherent t.cfg

/-- R31, R82: a state that meets the reachable-state facts never stops. Where nothing waits, R77 enables no step, and that
the answer is then the state itself is the model's choice (log 27). -/
def Obligations.CoherentStateNeverStops : Prop :=
  ∀ s : State, s.seq.Coherent s.cfg → ∃ t, step s = .next t

/-- R110: every step keeps the checker of R109 where it should stand, and the trace it accepts is never a Violation. -/
def Obligations.StepKeepsTheContract : Prop :=
  ∀ s t : State, s.seq.Coherent s.cfg → s.seq.ContractMet → step s = .next t →
    t.seq.ContractMet ∧ checkTrace t.seq.trace ≠ .violation

/-- R34: every step keeps the mirror property, in every admitted configuration. That a clear returns the counter to the
address of cell 0, a part of the property kept, is the model's reading where that is not 0 (log 20). That the display is not
shifted, a part of the property too, rests after a clear on the model's reading that a clear undoes a display shift (log 12,
DEDUCED). -/
def Obligations.StepKeepsTheMirror : Prop :=
  ∀ s t : State, Admitted s.cfg → s.seq.Coherent s.cfg → s.MirrorKept → step s = .next t → t.MirrorKept

/-- What a completed Init leaves on the device in every admitted configuration, from a line that a known shadow agrees with,
whatever address a clear leaves in the counter: all that R34 asks but the counter, which is that address. With the display
not shifted it is all of R34 for the address of cell 0, the model's reading; and for a controller that clears to 0 it is not,
where the first row starts elsewhere (log 20). That the display is then not shifted, whatever it was before, rests on the
model's reading that a clear undoes a display shift (log 12, DEDUCED). -/
def Obligations.InitMirrorsAllButAShiftedCounter : Prop :=
  ∀ (c : Config) (b : Bus) (sh line : RsShadow), Admitted c → b.watch = .running line .idle →
    (sh ≠ .unknown → line = sh ∧ b.line.rs = sh) →
    let b' := b.replay (initSeq sh)
    b'.watch = .running (.known .ir) .idle ∧ b'.line.rs = .known .ir ∧ b'.dev.twoLines = true ∧
    b'.dev.increment = true ∧ (∀ a : Nat, b'.dev.ddram.read a = .blank) ∧ b'.dev.ac = b.dev.clearAddr ∧
    (b.dev.clearAddr = addrOperand c 0 → Mirrors c (initPost c).rs (initPost c).cur (initPost c).buf b') ∧
    (b.dev.clearAddr = 0 → addrOf c 0 ≠ 0 → b'.dev.ac.toNat ≠ addrOf c (initPost c).cur)

/-- R82: every operation ends: from Busy, at most as many issue steps as primitives were pending lead to Ready or Desync.
Words put to the controller from outside go first (the model's choice, log 1). -/
def Obligations.EveryOperationEnds : Prop :=
  ∀ s : State, s.seq.Coherent s.cfg → s.seq.phase = .busy →
    ∃ n t, n ≤ s.bus.inbox.length + s.seq.pend.length ∧ core.run n s = .next t ∧ t.seq.phase ≠ .busy ∧
      t.seq.trace.countP isCall ≤ s.seq.trace.countP isCall + s.seq.pend.length

/-- R113: every step keeps one response for every request taken and for the reset-time Init. -/
def Obligations.StepKeepsOneResponsePerRequest : Prop :=
  ∀ s t : State, s.seq.Answered → step s = .next t → t.seq.Answered

/-- R29: the trace is only appended to, and no step reads it: with another trace the same step is taken. -/
def Obligations.TraceIsAppendOnlyAndNeverRead : Prop :=
  ∀ (s t : State) (es : List Event), step s = .next t →
    ∃ new, t.seq.trace = s.seq.trace ++ new ∧ step (s.withTrace es) = .next (t.withTrace (es ++ new))

/-- R125, R126: several instances on one data bus. A step of one, while no other is within an operation of which it has issued
a primitive, is the step it takes alone, and leaves every other's whole record and port, its bus but the byte on the data bus
(that this is the shared part is the model's reading, log 22), and its mirror as they were; a step that is no call leaves the
others as they were at any time. A call between the primitives of other instances leaves the records as they would be, and
nothing known of the controller of its own instance and of theirs (U16; its form is log 14's). -/
def Obligations.SequentialInstancesAreIndependent : Prop :=
  (∀ (b : Bench) (i : Nat) (s t : State), b.instances[i]? = some s → step s = .next t →
    (s.calls = true → ∀ (j : Nat) (u : State), j ≠ i → b.instances[j]? = some u → u.midway = false) →
    ∃ b' : Bench, b.step i = .next b' ∧ b'.instances.length = b.instances.length ∧ b'.instances[i]? = some t ∧
      ∀ (j : Nat) (u : State), j ≠ i → b.instances[j]? = some u → ∃ v, b'.instances[j]? = some v ∧
        v = { u with bus := { u.bus with line := { u.bus.line with bus := v.bus.line.bus } } } ∧
        (s.calls = false → v = u) ∧ (u.MirrorKept → v.MirrorKept)) ∧
  (∀ (b : Bench) (i k : Nat) (s t m : State), b.instances[i]? = some s → step s = .next t → s.calls = true →
    k ≠ i → b.instances[k]? = some m → m.midway = true →
    ∃ b' : Bench, b.step i = .next b' ∧
      (∃ v, b'.instances[i]? = some v ∧ v.cfg = t.cfg ∧ v.seq = t.seq ∧ v.port = t.port ∧ v.bus.Unspecified) ∧
      ∀ (j : Nat) (u : State), j ≠ i → b.instances[j]? = some u → ∃ v, b'.instances[j]? = some v ∧
        v.cfg = u.cfg ∧ v.seq = u.seq ∧ v.port = u.port ∧ (u.midway = true → v.bus.Unspecified) ∧
        (u.midway = false → v.bus = { u.bus with line := { u.bus.line with bus := v.bus.line.bus } }))

/-- R116, U7: whatever calls have bypassed the engine and whatever the controller holds, also after a power loss, a
host-issued Init restores the mirror, for a clear that returns the counter to cell 0 (log 20): the state that taking it leads
to will mirror once its calls are answered Ok. That it does so whatever the checker and the line hold is the model's reading:
taking an Init starts the bus's checker and line afresh on the shadow (log 14, log 24, DEDUCED). And only an Init does: where
nothing is known of the display there is no mirror, and every step leaves it so but one that takes an Init; a device word put
from outside does not make it known either. That the display is then not shifted, whatever it was before, rests on the
model's reading that a clear undoes a display shift (log 12, DEDUCED). -/
def Obligations.InitRestoresTheMirror : Prop :=
  (∀ s : State, Admitted s.cfg → s.bus.dev.clearAddr = addrOperand s.cfg 0 → s.bus.inbox = [] → s.seq.phase ≠ .busy →
    (∃ t, exec .init s = .next t ∧ t.seq.phase = .busy ∧ t.MirrorKept) ∧
    (∃ t, exec .init s.powerCycle = .next t ∧ t.seq.phase = .busy ∧ t.MirrorKept)) ∧
  (∀ s : State, s.seq.Coherent s.cfg → s.bus.Unspecified → ¬ s.MirrorKept) ∧
  (∀ s t : State, s.bus.Unspecified → step s = .next t → t.bus.Unspecified ∨
    (s.bus.inbox = [] ∧ s.seq.phase ≠ .busy ∧ s.port.head? = some .init ∧ t.seq.phase = .busy ∧ t.seq.op = some .init))

/-- R33, R107: the sequencer reads nothing back: line, checker, words from outside and controller influence neither what an
instruction does to S nor what answers are left. -/
def Obligations.SequencerIsBlindToTheDevice : Prop :=
  ∀ (i : Instr) (s u t : State), s.cfg = u.cfg → s.seq = u.seq → s.port = u.port → s.bus.answers = u.bus.answers →
    s.bus.draws = u.bus.draws → exec i s = .next t →
    ∃ v, exec i u = .next v ∧ v.seq = t.seq ∧ v.port = t.port ∧ v.cfg = t.cfg ∧ v.bus.answers = t.bus.answers ∧
      v.bus.draws = t.bus.draws

/-- R25, R81: shadow, cursor and buffer change only in the step that leaves Busy. -/
def Obligations.TrackerChangesOnlyWhenBusyEnds : Prop :=
  ∀ s t : State, step s = .next t →
    (t.seq.rs ≠ s.seq.rs ∨ t.seq.cur ≠ s.seq.cur ∨ t.seq.buf ≠ s.seq.buf) →
    s.seq.phase = .busy ∧ t.seq.phase ≠ .busy

/-- R114, R115, R119: Desync is entered only by a failed call of the operation in progress, and left only by taking an
Init. -/
def Obligations.DesyncEnteredByFailureLeftByInit : Prop :=
  ∀ s t : State, step s = .next t →
    (s.seq.phase ≠ .desync → t.seq.phase = .desync →
      ∃ op p rest, s.Issues op p rest ∧ s.bus.answerTo p = .fail) ∧
    (s.seq.phase = .desync → t.seq.phase ≠ .desync →
      s.port.head? = some .init ∧ t.seq.phase = .busy ∧ t.seq.op = some .init)

/-- Every step keeps the canonical form of the display memory (log 9). -/
def Obligations.StepKeepsDisplayMemoryCanonical : Prop :=
  ∀ s t : State, s.bus.dev.ddram.wf = true → step s = .next t → t.bus.dev.ddram.wf = true

/-- R109: the calls that are Violations, each from any line unless it says so. -/
def Obligations.CheckerRejectsTheNamedOrders : Prop :=
  ∀ (line : RsShadow) (b b' : Byte),
    Checker.onCall (.running .unknown .idle) (.tx b) .ok = .violation ∧
    Checker.onCall (.running line .idle) .pulse .ok = .violation ∧
    Checker.onCall (.running line .selected) .pulse .ok = .violation ∧
    (∀ d, Checker.onCall (.running line .idle) (.wait d) .ok = .violation ∧
      Checker.onCall (.running line .selected) (.wait d) .ok = .violation ∧
      Checker.onCall (.running line (.presented b)) (.wait d) .ok = .violation) ∧
    Checker.onCall (.running line (.presented b)) (.tx b') .ok = .violation ∧
    Checker.onCall (.running line (.presented b)) .selIr .ok = .violation ∧
    Checker.onCall (.running line (.presented b)) .selDr .ok = .violation ∧
    (∀ p : Prim, (∀ d, p ≠ .wait d) → Checker.onCall (.running line (.pulsed b)) p .ok = .violation) ∧
    (∀ r : Reg, delayOf r b = .long →
      Checker.onCall (.running (.known r) (.pulsed b)) (.wait .short) .ok = .violation)

/-- R32: the observation functions; the step that starts an operation and every step within it leave each but the phase at
its value from before the operation. -/
def Obligations.ObservationsAreAsStated : Prop :=
  (∀ s : State, s.phaseOf = s.seq.phase ∧ s.lastOf = s.seq.last ∧
    (s.seq.cur = none → s.cursorView = .unknown) ∧
    (∀ q, s.seq.cur = some q → q < s.cfg.w * s.cfg.h → s.cursorView = .at (q % s.cfg.w) (q / s.cfg.w)) ∧
    (s.seq.cur = some (s.cfg.w * s.cfg.h) → s.cursorView = .past) ∧
    (∀ col row, col < s.cfg.w → row < s.cfg.h → s.cellView col row = .ok (bufRead (row * s.cfg.w + col) s.seq.buf)) ∧
    (∀ col row, ¬ (col < s.cfg.w ∧ row < s.cfg.h) → s.cellView col row = .error .cellOutsideGeometry)) ∧
  (∀ s t : State, s.seq.phase = .busy → step s = .next t → t.seq.phase = .busy →
    t.phaseOf = s.phaseOf ∧ t.lastOf = s.lastOf ∧ t.cursorView = s.cursorView ∧
    ∀ col row, t.cellView col row = s.cellView col row) ∧
  (∀ (s t : State) (q : Request), s.seq.phase ≠ .busy → exec q.toInstr s = .next t → t.seq.phase = .busy →
    t.lastOf = s.lastOf ∧ t.cursorView = s.cursorView ∧ ∀ col row, t.cellView col row = s.cellView col row)
end

