-- ==== Sys2Proof/Laws/State.lean ====
section
/-! SUPPORT. One lemma per field per update of the state, true by unfolding the update once. -/

namespace Sys2Proof.Machine

@[simp] theorem Seq.record_phase (S : Seq) (e : Event) :
    (S.record e).phase = S.phase := rfl

@[simp] theorem Seq.record_op (S : Seq) (e : Event) :
    (S.record e).op = S.op := rfl

@[simp] theorem Seq.record_pend (S : Seq) (e : Event) :
    (S.record e).pend = S.pend := rfl

@[simp] theorem Seq.record_post (S : Seq) (e : Event) :
    (S.record e).post = S.post := rfl

@[simp] theorem Seq.record_rs (S : Seq) (e : Event) :
    (S.record e).rs = S.rs := rfl

@[simp] theorem Seq.record_cur (S : Seq) (e : Event) :
    (S.record e).cur = S.cur := rfl

@[simp] theorem Seq.record_buf (S : Seq) (e : Event) :
    (S.record e).buf = S.buf := rfl

@[simp] theorem Seq.record_last (S : Seq) (e : Event) :
    (S.record e).last = S.last := rfl

@[simp] theorem Seq.record_trace (S : Seq) (e : Event) :
    (S.record e).trace = S.trace ++ [e] := rfl

@[simp] theorem Seq.respond_phase (S : Seq) (r : Response) :
    (S.respond r).phase = S.phase := rfl

@[simp] theorem Seq.respond_op (S : Seq) (r : Response) :
    (S.respond r).op = S.op := rfl

@[simp] theorem Seq.respond_pend (S : Seq) (r : Response) :
    (S.respond r).pend = S.pend := rfl

@[simp] theorem Seq.respond_post (S : Seq) (r : Response) :
    (S.respond r).post = S.post := rfl

@[simp] theorem Seq.respond_rs (S : Seq) (r : Response) :
    (S.respond r).rs = S.rs := rfl

@[simp] theorem Seq.respond_cur (S : Seq) (r : Response) :
    (S.respond r).cur = S.cur := rfl

@[simp] theorem Seq.respond_buf (S : Seq) (r : Response) :
    (S.respond r).buf = S.buf := rfl

@[simp] theorem Seq.respond_last (S : Seq) (r : Response) :
    (S.respond r).last = some r := rfl

@[simp] theorem Seq.respond_trace (S : Seq) (r : Response) :
    (S.respond r).trace = S.trace ++ [.resp r] := rfl

@[simp] theorem Seq.start_phase (S : Seq) (t : OpTag) (ps : List Prim) (x : Post) :
    (S.start t ps x).phase = .busy := rfl

@[simp] theorem Seq.start_op (S : Seq) (t : OpTag) (ps : List Prim) (x : Post) :
    (S.start t ps x).op = some t := rfl

@[simp] theorem Seq.start_pend (S : Seq) (t : OpTag) (ps : List Prim) (x : Post) :
    (S.start t ps x).pend = ps := rfl

@[simp] theorem Seq.start_post (S : Seq) (t : OpTag) (ps : List Prim) (x : Post) :
    (S.start t ps x).post = x := rfl

@[simp] theorem Seq.start_rs (S : Seq) (t : OpTag) (ps : List Prim) (x : Post) :
    (S.start t ps x).rs = S.rs := rfl

@[simp] theorem Seq.start_cur (S : Seq) (t : OpTag) (ps : List Prim) (x : Post) :
    (S.start t ps x).cur = S.cur := rfl

@[simp] theorem Seq.start_buf (S : Seq) (t : OpTag) (ps : List Prim) (x : Post) :
    (S.start t ps x).buf = S.buf := rfl

@[simp] theorem Seq.start_last (S : Seq) (t : OpTag) (ps : List Prim) (x : Post) :
    (S.start t ps x).last = S.last := rfl

@[simp] theorem Seq.start_trace (S : Seq) (t : OpTag) (ps : List Prim) (x : Post) :
    (S.start t ps x).trace = S.trace := rfl

@[simp] theorem Seq.enterDesync_phase (S : Seq) (c : Config) :
    (S.enterDesync c).phase = .desync := rfl

@[simp] theorem Seq.enterDesync_op (S : Seq) (c : Config) :
    (S.enterDesync c).op = none := rfl

@[simp] theorem Seq.enterDesync_pend (S : Seq) (c : Config) :
    (S.enterDesync c).pend = [] := rfl

@[simp] theorem Seq.enterDesync_post (S : Seq) (c : Config) :
    (S.enterDesync c).post = S.post := rfl

@[simp] theorem Seq.enterDesync_rs (S : Seq) (c : Config) :
    (S.enterDesync c).rs = .unknown := rfl

@[simp] theorem Seq.enterDesync_cur (S : Seq) (c : Config) :
    (S.enterDesync c).cur = none := rfl

@[simp] theorem Seq.enterDesync_buf (S : Seq) (c : Config) :
    (S.enterDesync c).buf = filled c .unknown := rfl

@[simp] theorem Seq.enterDesync_last (S : Seq) (c : Config) :
    (S.enterDesync c).last = S.last := rfl

@[simp] theorem Seq.enterDesync_trace (S : Seq) (c : Config) :
    (S.enterDesync c).trace = S.trace := rfl

@[simp] theorem Seq.commit_phase (S : Seq)  :
    (S.commit).phase = .ready := rfl

@[simp] theorem Seq.commit_op (S : Seq)  :
    (S.commit).op = none := rfl

@[simp] theorem Seq.commit_pend (S : Seq)  :
    (S.commit).pend = [] := rfl

@[simp] theorem Seq.commit_post (S : Seq)  :
    (S.commit).post = S.post := rfl

@[simp] theorem Seq.commit_rs (S : Seq)  :
    (S.commit).rs = S.post.rs := rfl

@[simp] theorem Seq.commit_cur (S : Seq)  :
    (S.commit).cur = some S.post.cur := rfl

@[simp] theorem Seq.commit_buf (S : Seq)  :
    (S.commit).buf = S.post.buf := rfl

@[simp] theorem Seq.commit_last (S : Seq)  :
    (S.commit).last = S.last := rfl

@[simp] theorem Seq.commit_trace (S : Seq)  :
    (S.commit).trace = S.trace := rfl

@[simp] theorem State.record_cfg (s : State) (e : Event) :
    (s.record e).cfg = s.cfg := rfl

@[simp] theorem State.record_seq (s : State) (e : Event) :
    (s.record e).seq = s.seq.record e := rfl

@[simp] theorem State.record_port (s : State) (e : Event) :
    (s.record e).port = s.port := rfl

@[simp] theorem State.record_bus (s : State) (e : Event) :
    (s.record e).bus = s.bus := rfl

@[simp] theorem State.respond_cfg (s : State) (r : Response) :
    (s.respond r).cfg = s.cfg := rfl

@[simp] theorem State.respond_seq (s : State) (r : Response) :
    (s.respond r).seq = s.seq.respond r := rfl

@[simp] theorem State.respond_port (s : State) (r : Response) :
    (s.respond r).port = s.port := rfl

@[simp] theorem State.respond_bus (s : State) (r : Response) :
    (s.respond r).bus = s.bus := rfl

@[simp] theorem State.start_cfg (s : State) (t : OpTag) (ps : List Prim) (x : Post) :
    (s.start t ps x).cfg = s.cfg := rfl

@[simp] theorem State.start_seq (s : State) (t : OpTag) (ps : List Prim) (x : Post) :
    (s.start t ps x).seq = s.seq.start t ps x := rfl

@[simp] theorem State.start_port (s : State) (t : OpTag) (ps : List Prim) (x : Post) :
    (s.start t ps x).port = s.port := rfl

@[simp] theorem State.start_bus (s : State) (t : OpTag) (ps : List Prim) (x : Post) :
    (s.start t ps x).bus = s.bus := rfl

@[simp] theorem State.hold_cfg (s : State) (q : Request) :
    (s.hold q).cfg = s.cfg := rfl

@[simp] theorem State.hold_seq (s : State) (q : Request) :
    (s.hold q).seq = s.seq := rfl

@[simp] theorem State.hold_port (s : State) (q : Request) :
    (s.hold q).port = q :: s.port := rfl

@[simp] theorem State.hold_bus (s : State) (q : Request) :
    (s.hold q).bus = s.bus := rfl

@[simp] theorem State.issue_cfg (s : State) (t : OpTag) (p : Prim) (rest : List Prim) :
    (s.issue t p rest).cfg = s.cfg := rfl

@[simp] theorem State.issue_seq (s : State) (t : OpTag) (p : Prim) (rest : List Prim) :
    (s.issue t p rest).seq = s.seq.issue s.cfg t p rest (s.bus.answerTo p) := rfl

@[simp] theorem State.issue_port (s : State) (t : OpTag) (p : Prim) (rest : List Prim) :
    (s.issue t p rest).port = s.port := rfl

@[simp] theorem State.issue_bus (s : State) (t : OpTag) (p : Prim) (rest : List Prim) :
    (s.issue t p rest).bus = s.bus.call p (s.bus.answerTo p) := rfl

@[simp] theorem State.bypass_cfg (s : State) (p : Prim) : (s.bypass p).cfg = s.cfg := rfl

@[simp] theorem State.bypass_seq (s : State) (p : Prim) : (s.bypass p).seq = s.seq := rfl

@[simp] theorem State.bypass_port (s : State) (p : Prim) : (s.bypass p).port = s.port := rfl

@[simp] theorem State.bypass_bus (s : State) (p : Prim) : (s.bypass p).bus = s.bus.stray p (s.bus.answerTo p) := rfl

@[simp] theorem State.obey_cfg (s : State) (i : DevInstr) :
    (s.obey i).cfg = s.cfg := rfl

@[simp] theorem State.obey_seq (s : State) (i : DevInstr) :
    (s.obey i).seq = s.seq := rfl

@[simp] theorem State.obey_port (s : State) (i : DevInstr) :
    (s.obey i).port = s.port := rfl

@[simp] theorem State.obey_bus (s : State) (i : DevInstr) :
    (s.obey i).bus = s.bus.obey i := rfl

@[simp] theorem State.obeyUnlisted_cfg (s : State) (w : DevWord) :
    (s.obeyUnlisted w).cfg = s.cfg := rfl

@[simp] theorem State.obeyUnlisted_seq (s : State) (w : DevWord) :
    (s.obeyUnlisted w).seq = s.seq := rfl

@[simp] theorem State.obeyUnlisted_port (s : State) (w : DevWord) :
    (s.obeyUnlisted w).port = s.port := rfl

@[simp] theorem State.obeyUnlisted_bus (s : State) (w : DevWord) :
    (s.obeyUnlisted w).bus = s.bus.change (fun n d => d.unlisted w n) := rfl

@[simp] theorem State.ofConfig_cfg (c : Config)  :
    (State.ofConfig c).cfg = c := rfl

@[simp] theorem State.ofConfig_seq (c : Config)  :
    (State.ofConfig c).seq = Seq.reset c := rfl

@[simp] theorem State.ofConfig_port (c : Config)  :
    (State.ofConfig c).port = [] := rfl

@[simp] theorem State.ofConfig_bus (c : Config)  :
    (State.ofConfig c).bus = Bus.reset c := rfl

@[simp] theorem Bus.call_line (b : Bus) (p : Prim) (a : Answer) :
    (b.call p a).line = b.line.onCall p a := rfl

@[simp] theorem Bus.call_watch (b : Bus) (p : Prim) (a : Answer) :
    (b.call p a).watch = b.watch.onCall p a := rfl

@[simp] theorem Bus.call_inbox (b : Bus) (p : Prim) (a : Answer) :
    (b.call p a).inbox = b.inbox := rfl

@[simp] theorem Bus.call_dev (b : Bus) (p : Prim) (a : Answer) :
    (b.call p a).dev = b.devAfter p a := rfl

@[simp] theorem Bus.call_answers (b : Bus) (p : Prim) (a : Answer) :
    (b.call p a).answers = b.answersAfter p := rfl

@[simp] theorem Bus.call_draws (b : Bus) (p : Prim) (a : Answer) :
    (b.call p a).draws = b.draws + 1 := rfl

@[simp] theorem Bus.stray_line (b : Bus) (p : Prim) :
    (b.stray p (b.answerTo p)).line = b.line.onCall p (b.answerTo p) := by
  cases p <;> rfl

@[simp] theorem Bus.stray_inbox (b : Bus) (p : Prim) (a : Answer) : (b.stray p a).inbox = b.inbox := by
  cases p <;> rfl

@[simp] theorem Bus.stray_answers (b : Bus) (p : Prim) (a : Answer) : (b.stray p a).answers = b.answersAfter p := by
  cases p <;> rfl

@[simp] theorem Bus.stray_draws (b : Bus) (p : Prim) (a : Answer) : (b.stray p a).draws = b.draws + 1 := by
  cases p <;> rfl

@[simp] theorem Bus.stray_wait (b : Bus) (d : DelayClass) (a : Answer) :
    b.stray (.wait d) a = { b with draws := b.draws + 1 } := rfl

theorem Bus.stray_watch (b : Bus) (p : Prim) (a : Answer) (h : p.onTransport = true) :
    (b.stray p a).watch = .violation := by
  simp [Bus.stray, h]

theorem Bus.stray_dev (b : Bus) (p : Prim) (a : Answer) (h : p.onTransport = true) :
    (b.stray p a).dev = b.dev.unspecified b.draws := by
  simp [Bus.stray, h]

@[simp] theorem Bus.restart_line (b : Bus) (rs : RsShadow) : (b.restart rs).line = { b.line with rs := rs } := rfl

@[simp] theorem Bus.restart_watch (b : Bus) (rs : RsShadow) : (b.restart rs).watch = .running rs .idle := rfl

@[simp] theorem Bus.restart_inbox (b : Bus) (rs : RsShadow) : (b.restart rs).inbox = b.inbox := rfl

@[simp] theorem Bus.restart_dev (b : Bus) (rs : RsShadow) : (b.restart rs).dev = b.dev := rfl

@[simp] theorem Bus.restart_answers (b : Bus) (rs : RsShadow) : (b.restart rs).answers = b.answers := rfl

@[simp] theorem Bus.restart_draws (b : Bus) (rs : RsShadow) : (b.restart rs).draws = b.draws := rfl

@[simp] theorem State.restart_cfg (s : State) : s.restart.cfg = s.cfg := rfl

@[simp] theorem State.restart_seq (s : State) : s.restart.seq = s.seq := rfl

@[simp] theorem State.restart_port (s : State) : s.restart.port = s.port := rfl

@[simp] theorem State.restart_bus (s : State) : s.restart.bus = s.bus.restart s.seq.rs := rfl

/-- A change of the controller touches the controller and the count of free values only. -/
theorem Bus.change_eq (b : Bus) (f : Nat → Device → Device) :
    b.change f = { b with dev := (b.change f).dev, draws := b.draws + 1 } := by
  unfold Bus.change
  split <;> rfl

@[simp] theorem Bus.change_line (b : Bus) (f : Nat → Device → Device) : (b.change f).line = b.line := by
  rw [Bus.change_eq]

@[simp] theorem Bus.change_watch (b : Bus) (f : Nat → Device → Device) : (b.change f).watch = b.watch := by
  rw [Bus.change_eq]

@[simp] theorem Bus.change_inbox (b : Bus) (f : Nat → Device → Device) : (b.change f).inbox = b.inbox := by
  rw [Bus.change_eq]

@[simp] theorem Bus.change_answers (b : Bus) (f : Nat → Device → Device) : (b.change f).answers = b.answers := by
  rw [Bus.change_eq]

@[simp] theorem Bus.change_draws (b : Bus) (f : Nat → Device → Device) : (b.change f).draws = b.draws + 1 := by
  rw [Bus.change_eq]

/-- Under a met contract the controller does what the word says. -/
theorem Bus.change_dev (b : Bus) (f : Nat → Device → Device) (h : b.watch ≠ .violation) :
    (b.change f).dev = f b.draws b.dev := by
  unfold Bus.change
  split
  · contradiction
  · rfl

/-- Past a violation nothing is known of the controller (R111). -/
theorem Bus.change_dev_violation (b : Bus) (f : Nat → Device → Device) (h : b.watch = .violation) :
    (b.change f).dev = b.dev.unspecified b.draws := by
  simp [Bus.change, h]

/-! ### The address a clear leaves in the counter, which nothing changes (log 20) -/

@[simp] theorem Device.unspecified_clearAddr (d : Device) (n : Nat) : (d.unspecified n).clearAddr = d.clearAddr := rfl

@[simp] theorem effectOf_clearAddr (i : DevInstr) (n : Nat) (d : Device) : (effectOf i n d).clearAddr = d.clearAddr := by
  cases i <;> rfl

@[simp] theorem Device.unlisted_clearAddr (d : Device) (w : DevWord) (n : Nat) :
    (d.unlisted w n).clearAddr = d.clearAddr := by
  unfold Device.unlisted
  repeat' split
  all_goals rfl

@[simp] theorem Device.receive_clearAddr (d : Device) (w : DevWord) (n : Nat) :
    (d.receive w n).clearAddr = d.clearAddr := by
  unfold Device.receive
  split <;> simp

@[simp] theorem Bus.devAfter_clearAddr (b : Bus) (p : Prim) (a : Answer) :
    (b.devAfter p a).clearAddr = b.dev.clearAddr := by
  unfold Bus.devAfter
  split
  · rfl
  · generalize b.dev = d
    induction b.latched p a generalizing d with
    | nil => rfl
    | cons w ws ih => rw [List.foldl_cons, ih, Device.receive_clearAddr]

@[simp] theorem Bus.stray_clearAddr (b : Bus) (p : Prim) (a : Answer) :
    (b.stray p a).dev.clearAddr = b.dev.clearAddr := by
  cases p <;> rfl

/-- A change of the controller leaves it if the change does. -/
theorem Bus.change_clearAddr (b : Bus) (f : Nat → Device → Device) (hf : ∀ n d, (f n d).clearAddr = d.clearAddr) :
    (b.change f).dev.clearAddr = b.dev.clearAddr := by
  unfold Bus.change
  split
  · rfl
  · exact hf _ _

end Sys2Proof.Machine
end

