-- ==== Sys2Proof/Laws/Ops.lean ====
section
/-! SUPPORT. What each shared operation can do, once; provers cite these and do not unfold the operation. -/

namespace Sys2Proof.Machine

variable {s t : State} {q : Request} {p : Prim} {body : State → Result}

/-- Taking a request in Busy only puts it back at the port. -/
theorem State.take_busy (h : s.seq.phase = .busy) : s.take q body = .next (s.hold q) := by
  simp [State.take, h]

theorem State.take_ready (h : s.seq.phase = .ready) : s.take q body = body (s.record (.req q)) := by
  simp [State.take, h]

theorem State.take_desync_init (h : s.seq.phase = .desync) (hq : q.tag = .init) :
    s.take q body = body (s.record (.req q)) := by
  simp [State.take, h, hq]

theorem State.take_desync (h : s.seq.phase = .desync) (hq : q.tag ≠ .init) :
    s.take q body = .next ((s.record (.req q)).respond (.err q.tag .desynchronized)) := by
  simp [State.take, h, hq]

/-- Everything taking a request can do: hold it, reject it, or carry it out. -/
theorem State.take_cases (h : s.take q body = .next t) :
    (s.seq.phase = .busy ∧ t = s.hold q) ∨
    (s.seq.phase = .desync ∧ q.tag ≠ .init ∧ t = (s.record (.req q)).respond (.err q.tag .desynchronized)) ∨
    (s.seq.phase ≠ .busy ∧ (s.seq.phase = .desync → q.tag = .init) ∧ body (s.record (.req q)) = .next t) := by
  cases hp : s.seq.phase with
  | busy =>
    rw [State.take_busy hp] at h
    exact .inl ⟨rfl, (Host.Outcome.next.inj h).symm⟩
  | ready =>
    rw [State.take_ready hp] at h
    exact .inr (.inr ⟨by simp, by simp, h⟩)
  | desync =>
    by_cases hq : q.tag = .init
    · rw [State.take_desync_init hp hq] at h
      exact .inr (.inr ⟨by simp, fun _ => hq, h⟩)
    · rw [State.take_desync hp hq] at h
      exact .inr (.inl ⟨rfl, hq, (Host.Outcome.next.inj h).symm⟩)

/-- Every primitive is a call. -/
theorem exec_prim (p : Prim) (s : State) : exec p.toInstr s = .next (s.call p) := by
  cases p with
  | wait d => cases d <;> rfl
  | _ => rfl

/-- Every device word is obeyed by the controller. -/
theorem exec_device (d : DevInstr) (s : State) : exec d.toInstr s = .next (s.obey d) := by
  cases d with
  | displayOn c b => cases c <;> cases b <;> rfl
  | _ => rfl

/-- The head of the pending list is the sequencer's own call (R81). -/
theorem State.call_issue {op : OpTag} {rest : List Prim} (hp : s.seq.phase = .busy) (ho : s.seq.op = some op)
    (hl : s.seq.pend = p :: rest) : s.call p = s.issue op p rest := by
  simp [State.call, hp, ho, hl]

/-- Any other call is made past the sequencer (R116). -/
theorem State.call_bypass (h : ∀ op rest, ¬ (s.seq.phase = .busy ∧ s.seq.op = some op ∧ s.seq.pend = p :: rest)) :
    s.call p = s.bypass p := by
  unfold State.call
  split
  · rename_i op hd rest h1 h2 h3
    split
    · rename_i heq
      exact absurd ⟨h1, h2, heq ▸ h3⟩ (h op rest)
    · rfl
  · rfl

/-- A call is the sequencer's own or is made past it. -/
theorem State.call_cases (s : State) (p : Prim) :
    (∃ op rest, s.seq.phase = .busy ∧ s.seq.op = some op ∧ s.seq.pend = p :: rest ∧ s.call p = s.issue op p rest) ∨
    ((∀ op rest, ¬ (s.seq.phase = .busy ∧ s.seq.op = some op ∧ s.seq.pend = p :: rest)) ∧ s.call p = s.bypass p) := by
  by_cases h : ∃ op rest, s.seq.phase = .busy ∧ s.seq.op = some op ∧ s.seq.pend = p :: rest
  · obtain ⟨op, rest, h1, h2, h3⟩ := h
    exact .inl ⟨op, rest, h1, h2, h3, State.call_issue h1 h2 h3⟩
  · have h' : ∀ op rest, ¬ (s.seq.phase = .busy ∧ s.seq.op = some op ∧ s.seq.pend = p :: rest) :=
      fun op rest hh => h ⟨op, rest, hh⟩
    exact .inr ⟨h', State.call_bypass h'⟩

theorem Seq.issue_fail (S : Seq) (c : Config) (op : OpTag) (p : Prim) (rest : List Prim) :
    S.issue c op p rest .fail = ((S.record (.call p .fail)).enterDesync c).respond (.err op .transportError) := rfl

theorem Seq.issue_last (S : Seq) (c : Config) (op : OpTag) (p : Prim) :
    S.issue c op p [] .ok = (S.record (.call p .ok)).commit.respond (.done op) := rfl

theorem Seq.issue_more (S : Seq) (c : Config) (op : OpTag) (p p' : Prim) (rest : List Prim) :
    S.issue c op p (p' :: rest) .ok = { S with pend := p' :: rest, trace := S.trace ++ [.call p .ok] } := rfl

/-- A wait answers Ok (R95). -/
@[simp] theorem Bus.answerTo_wait (b : Bus) (d : DelayClass) : b.answerTo (.wait d) = .ok := rfl

/-- The controller after a call under a met contract. -/
theorem Bus.devAfter_running {b : Bus} {a : Answer} {l : RsShadow} {g : Stage}
    (h : b.watch.onCall p a = .running l g) :
    b.devAfter p a = (b.latched p a).foldl (fun d w => d.receive w b.draws) b.dev := by
  simp [Bus.devAfter, h]

/-- The controller after a call that leaves the contract violated (R111). -/
theorem Bus.devAfter_violation {b : Bus} {a : Answer} (h : b.watch.onCall p a = .violation) :
    b.devAfter p a = b.dev.unspecified b.draws := by
  simp [Bus.devAfter, h]

/-- The words latched by a call that is no pulse (R42). -/
theorem Bus.latched_of_ne_pulse (b : Bus) (a : Answer) (h : p ≠ .pulse) : b.latched p a = [] := by
  cases p <;> first | contradiction | rfl

/-- A violation is never left (R109). -/
@[simp] theorem Checker.onCall_violation (p : Prim) (a : Answer) :
    Checker.violation.onCall p a = .violation := by
  cases a <;> rfl

/-- A failed call leaves the line and the checker unknown (R104, R109). -/
theorem Checker.onCall_fail (k : Checker) (p : Prim) (h : k ≠ .violation) :
    k.onCall p .fail = .running .unknown .idle := by
  cases k with
  | running l g => rfl
  | violation => contradiction

/-- What a request that is carried out starts, and when (R80, R83 to R88). -/
def Starts (s : State) (q : Request) (prims : List Prim) (post : Post) : Prop :=
  match q with
  | .init => prims = initSeq s.seq.rs ∧ post = initPost s.cfg
  | .clear => s.seq.phase = .ready ∧ prims = clearSeq s.seq.rs ∧ post = clearPost s.cfg
  | .setCursor c r => s.seq.phase = .ready ∧ c < s.cfg.w ∧ r < s.cfg.h ∧ prims = cursorSeq s.cfg s.seq.rs c r ∧
      post = cursorPost s.cfg c r s.seq.buf
  | .writeText text => s.seq.phase = .ready ∧ text ≠ [] ∧ ∃ p, s.seq.cur = some p ∧
      p + text.length ≤ cellCount s.cfg ∧ prims = (writeSeq s.cfg s.seq.rs p text).1 ∧
      post = writePost s.cfg s.seq.rs p text s.seq.buf

/-- A started request's state: an Init also starts the contract afresh, on the shadow. -/
def State.opened (q : Request) (s : State) : State :=
  match q with
  | .init => s.restart
  | .clear => s
  | .setCursor _ _ => s
  | .writeText _ => s

@[simp] theorem State.opened_cfg (q : Request) (s : State) : (s.opened q).cfg = s.cfg := by cases q <;> rfl

@[simp] theorem State.opened_seq (q : Request) (s : State) : (s.opened q).seq = s.seq := by cases q <;> rfl

@[simp] theorem State.opened_port (q : Request) (s : State) : (s.opened q).port = s.port := by cases q <;> rfl

/-- Whatever is started, the controller, the answers and the draws stay. -/
theorem State.opened_bus (q : Request) (s : State) :
    (s.opened q).bus = { s.bus with watch := (s.opened q).bus.watch, line := (s.opened q).bus.line } := by
  cases q <;> rfl

/-- Everything a request can do: wait at the port, be answered at once, or start its operation. -/
theorem exec_request_cases (h : exec q.toInstr s = .next t) :
    (s.seq.phase = .busy ∧ t = s.hold q) ∨
    (s.seq.phase ≠ .busy ∧ (s.seq.phase = .desync → q.tag ≠ .init) ∧
      ∃ r, (r = .done q.tag ∨ ∃ k, r = .err q.tag k) ∧ t = (s.record (.req q)).respond r) ∨
    (s.seq.phase ≠ .busy ∧ (s.seq.phase = .desync → q.tag = .init) ∧
      ∃ prims post, Starts s q prims post ∧ t = ((s.record (.req q)).start q.tag prims post).opened q) := by
  have ready : s.seq.phase ≠ .busy → (s.seq.phase = .desync → q.tag = .init) → q.tag ≠ .init →
      s.seq.phase = .ready := by
    intro h1 h2 h3
    cases hp : s.seq.phase with
    | busy => exact absurd hp h1
    | ready => rfl
    | desync => exact absurd (h2 hp) h3
  cases q with
  | init =>
    simp only [Request.toInstr, exec, execInit] at h
    rcases State.take_cases h with ⟨h1, h2⟩ | ⟨_, h2, _⟩ | ⟨h1, h2, h3⟩
    · exact .inl ⟨h1, h2⟩
    · exact absurd rfl h2
    · exact .inr (.inr ⟨h1, h2, _, _, ⟨rfl, rfl⟩, (Host.Outcome.next.inj h3).symm⟩)
  | clear =>
    simp only [Request.toInstr, exec, execClear] at h
    rcases State.take_cases h with ⟨h1, h2⟩ | ⟨h1, h2, h3⟩ | ⟨h1, h2, h3⟩
    · exact .inl ⟨h1, h2⟩
    · exact .inr (.inl ⟨by simp [h1], fun _ => h2, _, .inr ⟨_, rfl⟩, h3⟩)
    · exact .inr (.inr ⟨h1, h2, _, _, ⟨ready h1 h2 (by decide), rfl, rfl⟩, (Host.Outcome.next.inj h3).symm⟩)
  | setCursor c r =>
    simp only [Request.toInstr, exec, execSetCursor] at h
    have hni : (Request.setCursor c r).tag ≠ .init := fun hh => OpTag.noConfusion hh
    rcases State.take_cases h with ⟨h1, h2⟩ | ⟨h1, h2, h3⟩ | ⟨h1, h2, h3⟩
    · exact .inl ⟨h1, h2⟩
    · exact .inr (.inl ⟨by simp [h1], fun _ => h2, _, .inr ⟨_, rfl⟩, h3⟩)
    · have hr := ready h1 h2 hni
      by_cases hlt : c ≥ s.cfg.w ∨ r ≥ s.cfg.h
      · rw [if_pos hlt] at h3
        exact .inr (.inl ⟨h1, fun hd => by simp [hr] at hd, _, .inr ⟨_, rfl⟩, (Host.Outcome.next.inj h3).symm⟩)
      · rw [if_neg hlt] at h3
        simp only [not_or, ge_iff_le, not_le] at hlt
        exact .inr (.inr ⟨h1, h2, _, _, ⟨hr, hlt.1, hlt.2, rfl, rfl⟩, (Host.Outcome.next.inj h3).symm⟩)
  | writeText text =>
    simp only [Request.toInstr, exec, execWriteText] at h
    have hni : (Request.writeText text).tag ≠ .init := fun hh => OpTag.noConfusion hh
    rcases State.take_cases h with ⟨h1, h2⟩ | ⟨h1, h2, h3⟩ | ⟨h1, h2, h3⟩
    · exact .inl ⟨h1, h2⟩
    · exact .inr (.inl ⟨by simp [h1], fun _ => h2, _, .inr ⟨_, rfl⟩, h3⟩)
    · have hr := ready h1 h2 hni
      split at h3
      · exact .inr (.inl ⟨h1, fun hd => by simp [hr] at hd, _, .inl rfl, (Host.Outcome.next.inj h3).symm⟩)
      · rename_i hne
        split at h3
        · cases h3
        · rename_i p hc
          by_cases hle : p + text.length > cellCount s.cfg
          · rw [if_pos hle] at h3
            exact .inr (.inl ⟨h1, fun hd => by simp [hr] at hd, _, .inr ⟨_, rfl⟩, (Host.Outcome.next.inj h3).symm⟩)
          · rw [if_neg hle] at h3
            exact .inr (.inr ⟨h1, h2, _, _, ⟨hr, hne, p, hc, by omega, rfl, rfl⟩, (Host.Outcome.next.inj h3).symm⟩)

/-- What a step does, by which agent moves. -/
theorem step_cases (h : step s = .next t) :
    (∃ w ws, s.bus.inbox = w :: ws ∧
      ((∃ d, decodeDevice w = some d ∧ t = ({ s with bus := { s.bus with inbox := ws } } : State).obey d) ∨
        (decodeDevice w = none ∧ t = ({ s with bus := { s.bus with inbox := ws } } : State).obeyUnlisted w))) ∨
    (∃ op p rest, s.bus.inbox = [] ∧ s.seq.phase = .busy ∧ s.seq.op = some op ∧ s.seq.pend = p :: rest ∧
      t = s.issue op p rest) ∨
    (∃ q qs, s.bus.inbox = [] ∧ s.seq.phase ≠ .busy ∧ s.port = q :: qs ∧
      exec q.toInstr { s with port := qs } = .next t) ∨
    (s.bus.inbox = [] ∧ s.seq.phase ≠ .busy ∧ s.port = [] ∧ t = s) := by
  unfold step State.fetch at h
  cases hi : s.bus.inbox with
  | cons w ws =>
    left
    refine ⟨w, ws, rfl, ?_⟩
    simp only [hi, State.fetchDevice] at h
    cases hd : decodeDevice w with
    | some d =>
      simp only [hd, exec_device, Host.Outcome.next.injEq] at h
      exact .inl ⟨d, rfl, h.symm⟩
    | none =>
      simp only [hd, Host.Outcome.next.injEq] at h
      exact .inr ⟨rfl, h.symm⟩
  | nil =>
    right
    simp only [hi] at h
    cases hp : s.seq.phase with
    | busy =>
      left
      simp only [hp, State.fetchPrim] at h
      cases ho : s.seq.op with
      | none => simp [ho] at h
      | some op =>
        cases hl : s.seq.pend with
        | nil => simp [ho, hl] at h
        | cons p rest =>
          simp only [ho, hl, exec_prim, State.call_issue hp ho hl, Host.Outcome.next.injEq] at h
          exact ⟨op, p, rest, rfl, rfl, rfl, rfl, h.symm⟩
    | ready =>
      right
      simp only [hp, State.fetchRequest] at h
      cases hq : s.port with
      | nil =>
        simp only [hq, Host.Outcome.next.injEq] at h
        exact .inr ⟨rfl, by simp, rfl, h.symm⟩
      | cons q qs =>
        simp only [hq] at h
        exact .inl ⟨q, qs, rfl, by simp, rfl, h⟩
    | desync =>
      right
      simp only [hp, State.fetchRequest] at h
      cases hq : s.port with
      | nil =>
        simp only [hq, Host.Outcome.next.injEq] at h
        exact .inr ⟨rfl, by simp, rfl, h.symm⟩
      | cons q qs =>
        simp only [hq] at h
        exact .inl ⟨q, qs, rfl, by simp, rfl, h⟩

end Sys2Proof.Machine
end

