-- ==== Sys2Proof/Laws/Expand.lean ====
section
/-! SUPPORT. One transfer (R79) seen by the checker, the latch stream and the clock, and how these go through `++`. -/

namespace Sys2Proof.Machine

@[simp] theorem xfer_shadow (sh : RsShadow) (reg : Reg) (b : Byte) : (xfer sh reg b).2 = .known reg := rfl

theorem xfer_ne_nil (sh : RsShadow) (reg : Reg) (b : Byte) : (xfer sh reg b).1 ≠ [] := by
  simp [xfer]

@[simp] theorem delayReaches_refl (d : DelayClass) : delayReaches d d = true := by
  cases d <;> rfl

@[simp] theorem delayOf_setDdram (a : Addr) : delayOf .ir (setDdramByte a) = .short := by
  revert a; decide

theorem Checker.onPrims_append (k : Checker) (a b : List Prim) :
    k.onPrims (a ++ b) = (k.onPrims a).onPrims b := by
  simp [Checker.onPrims]

theorem Checker.onPrims_violation (ps : List Prim) : Checker.violation.onPrims ps = .violation := by
  induction ps with
  | nil => rfl
  | cons p ps ih => simpa [Checker.onPrims] using ih

/-- A transfer from the line it expects ends Idle on its own register. -/
theorem Checker.onPrims_xfer (sh : RsShadow) (reg : Reg) (b : Byte) :
    (Checker.running sh .idle).onPrims (xfer sh reg b).1 = .running (.known reg) .idle := by
  rcases sh with _ | _ | _ <;> cases reg <;> simp [xfer, selOf, Checker.onPrims, Checker.onCall]

theorem checkTrace_append (es es' : List Event) :
    checkTrace (es ++ es') = es'.foldl Checker.onEvent (checkTrace es) := by
  simp [checkTrace]

/-- A transfer latches exactly its own word. -/
theorem latchStream_xfer (sh : RsShadow) (bus : Option Byte) (reg : Reg) (b : Byte) (rest : List Prim) :
    latchStream { rs := sh, bus := bus } ((xfer sh reg b).1 ++ rest) =
      some (deviceWord reg b) :: latchStream { rs := .known reg, bus := some b } rest := by
  rcases sh with _ | _ | _ <;> cases reg <;> simp [xfer, selOf, latchStream, Line.onCall, Line.word]

theorem minTime_append (c : Config) (a b : List Prim) : minTime c (a ++ b) = minTime c a + minTime c b := by
  simp [minTime]

theorem minTime_xfer (c : Config) (sh : RsShadow) (reg : Reg) (b : Byte) :
    minTime c (xfer sh reg b).1 = if delayOf reg b = .long then c.tLong else c.tShort := by
  rcases sh with _ | _ | _ <;> cases reg <;> simp [xfer, selOf, minTime, minTimeOf] <;> cases delayOf _ b <;> simp

/-- The row ends of `n + 1` characters are the first one's and the rest's. -/
theorem rowEnds_succ (c : Config) (p n : Nat) :
    rowEnds c p (n + 1) = (if endsRow c p then 1 else 0) + rowEnds c (p + 1) n := by
  unfold rowEnds
  rw [List.range_succ_eq_map, List.countP_cons, List.countP_map, Nat.add_comm]
  congr 1
  apply List.countP_congr
  intro x _
  simp [show p + 1 + x = p + (x + 1) by omega]

end Sys2Proof.Machine
end

