-- ==== Sys2Proof/Laws/Geometry.lean ====
section
/-! SUPPORT. What a configuration that construction admits guarantees (R129), and how the counter follows the cells of a
row (R34, R37). -/

namespace Sys2Proof.Machine

/-- Construction admits a configuration exactly if all five checks pass. -/
theorem checkConfig_iff (c : Config) :
    checkConfig c = .ok () ↔
      c.transportBound = true ∧ sizesPositive c = true ∧ basesFit c = true ∧ addrsInRange c = true ∧
        addrsDistinct c = true := by
  unfold checkConfig
  cases c.transportBound <;> cases sizesPositive c <;> cases basesFit c <;> cases addrsInRange c <;>
    cases addrsDistinct c <;> simp

theorem addrsInRange_iff (c : Config) :
    addrsInRange c = true ↔ ∀ q < cellCount c, addrOf c q ≤ 0x27 ∨ (0x40 ≤ addrOf c q ∧ addrOf c q ≤ 0x67) := by
  simp [addrsInRange, cellAddrs, displayAddr]

theorem addrsDistinct_iff (c : Config) :
    addrsDistinct c = true ↔ ∀ q < cellCount c, ∀ r < cellCount c, addrOf c q = addrOf c r → q = r := by
  rw [addrsDistinct, decide_eq_true_eq, cellAddrs]
  constructor
  · intro h q hq r hr he
    exact List.inj_on_of_nodup_map h (by simpa using hq) (by simpa using hr) he
  · intro h
    exact List.Nodup.map_on (fun x hx y hy he => h x (by simpa using hx) y (by simpa using hy) he) List.nodup_range

variable {c : Config}

theorem Admitted.pos (h : Admitted c) : 0 < c.w ∧ 0 < c.h := by
  have hs := ((checkConfig_iff c).1 h).2.1
  simp only [sizesPositive, Bool.and_eq_true, decide_eq_true_eq] at hs
  exact hs

theorem Admitted.range (h : Admitted c) :
    ∀ q < cellCount c, addrOf c q ≤ 0x27 ∨ (0x40 ≤ addrOf c q ∧ addrOf c q ≤ 0x67) :=
  (addrsInRange_iff c).1 ((checkConfig_iff c).1 h).2.2.2.1

theorem Admitted.injective (h : Admitted c) :
    ∀ q < cellCount c, ∀ r < cellCount c, addrOf c q = addrOf c r → q = r :=
  (addrsDistinct_iff c).1 ((checkConfig_iff c).1 h).2.2.2.2

/-- A cell's address is its 7-bit operand. -/
theorem Admitted.addrOperand_toNat (h : Admitted c) (q : Nat) (hq : q < cellCount c) :
    (addrOperand c q).toNat = addrOf c q := by
  have := h.range q hq
  simp [addrOperand]
  omega

/-- A column and row inside the geometry are a cell. -/
theorem position_lt {col row : Nat} (hc : col < c.w) (hr : row < c.h) : position c col row < cellCount c := by
  have h1 : (row + 1) * c.w ≤ c.h * c.w := Nat.mul_le_mul_right _ hr
  rw [Nat.succ_mul] at h1
  rw [position, cellCount, Nat.mul_comm c.w]
  omega

theorem bufRead_filled (c : Config) (x : Cell) (q : Nat) (h : q < cellCount c) : bufRead q (filled c x) = x := by
  simp [bufRead, filled, h]

/-- Within a row, the next cell has the next address. -/
theorem addrOf_succ (hw : 0 < c.w) (q : Nat) (h : (q + 1) % c.w ≠ 0) : addrOf c (q + 1) = addrOf c q + 1 := by
  have h1 := Nat.div_add_mod q c.w
  have h2 := Nat.mod_lt q hw
  have h3 : q % c.w + 1 ≠ c.w := by
    intro h3
    apply h
    have : q + 1 = c.w * (q / c.w + 1) := by rw [Nat.mul_add]; omega
    rw [this]; simp
  have h4 : q + 1 = (q % c.w + 1) + c.w * (q / c.w) := by omega
  have hd : (q + 1) / c.w = q / c.w := by
    rw [h4, Nat.add_mul_div_left _ _ hw, Nat.div_eq_of_lt (by omega)]; simp
  have hm : (q + 1) % c.w = q % c.w + 1 := by
    rw [h4, Nat.add_mul_mod_self_left, Nat.mod_eq_of_lt (by omega)]
  simp only [addrOf, hd, hm]
  omega

/-- The counter follows the cells of a row (R34). -/
theorem Admitted.nextAddr_in_row (h : Admitted c) (q n : Nat) (hq : q + 1 < cellCount c)
    (he : endsRow c q = false) (a : Addr) (ha : a.toNat = addrOf c q) :
    (nextAddr true n a).toNat = addrOf c (q + 1) := by
  have hm : (q + 1) % c.w ≠ 0 := by
    intro hm
    simp [endsRow, hm, hq] at he
  have ha2 := addrOf_succ h.pos.1 q hm
  have r1 := h.range q (by omega)
  have r2 := h.range (q + 1) hq
  have n1 : a ≠ 39#7 := by intro e; rw [e] at ha; simp at ha; omega
  have n2 : a ≠ 103#7 := by intro e; rw [e] at ha; simp at ha; omega
  have n3 : a ≠ 127#7 := by intro e; rw [e] at ha; simp at ha; omega
  simp [nextAddr, n1, n2, n3]
  omega

/-- Below 0x7F the free value of the counter's step is not used. -/
theorem nextAddr_stated (a : Addr) (n m : Nat) (h : a.toNat ≤ 0x67) : nextAddr true n a = nextAddr true m a := by
  have n3 : a ≠ 127#7 := by intro e; rw [e] at h; simp at h
  simp [nextAddr, n3]

end Sys2Proof.Machine
end

