-- ==== Sys2Proof/Laws/Replay.lean ====
section
/-! SUPPORT. What the bus looks like after one whole transfer, and where the device stores in it. -/

namespace Sys2Proof.Machine

@[simp] theorem Bus.replay_nil (b : Bus) : b.replay [] = b := rfl

@[simp] theorem Bus.replay_cons (b : Bus) (p : Prim) (ps : List Prim) :
    b.replay (p :: ps) = (b.call p .ok).replay ps := rfl

@[simp] theorem Bus.replay_inbox (b : Bus) (ps : List Prim) : (b.replay ps).inbox = b.inbox := by
  induction ps generalizing b with
  | nil => rfl
  | cons p ps ih => rw [Bus.replay_cons, ih, Bus.call_inbox]

@[simp] theorem Bus.replay_clearAddr (b : Bus) (ps : List Prim) : (b.replay ps).dev.clearAddr = b.dev.clearAddr := by
  induction ps generalizing b with
  | nil => rfl
  | cons p ps ih => rw [Bus.replay_cons, ih, Bus.call_dev, Bus.devAfter_clearAddr]

@[simp] theorem Bus.storesAt_nil (b : Bus) : b.storesAt [] = [] := rfl

/-- A violation outlasts every replay. -/
theorem Bus.replay_violation (b : Bus) (h : b.watch = .violation) (ps : List Prim) :
    (b.replay ps).watch = .violation := by
  induction ps generalizing b with
  | nil => exact h
  | cons p ps ih => exact ih _ (by simp [h])

/-- The three calls of a transfer after its select: the controller obeys exactly the transfer's word, and stores at its
counter exactly if the word is a data word. -/
theorem Bus.replay_selected (b : Bus) (reg : Reg) (x : Byte) (d : DevInstr) (rest : List Prim) (g : Stage)
    (hl : b.line.rs = .known reg) (hw : b.watch = .running (.known reg) g)
    (hg : g = .idle ∨ g = .selected) (hd : decodeDevice (deviceWord reg x) = some d) :
    ∃ b' : Bus, b.replay (.tx x :: .pulse :: .wait (delayOf reg x) :: rest) = b'.replay rest ∧
      b'.watch = .running (.known reg) .idle ∧ b'.line.rs = .known reg ∧ (∃ n, b'.dev = effectOf d n b.dev) ∧
      b.storesAt (.tx x :: .pulse :: .wait (delayOf reg x) :: rest) =
        (if reg = .dr then [b.dev.ac] else []) ++ b'.storesAt rest := by
  refine ⟨((b.call (.tx x) .ok).call .pulse .ok).call (.wait (delayOf reg x)) .ok, rfl, ?_, ?_, ⟨b.draws + 1, ?_⟩, ?_⟩
  · rcases hg with rfl | rfl <;> simp [hw, Checker.onCall]
  · simp [Line.onCall, hl]
  · rcases hg with rfl | rfl <;>
      simp [Bus.devAfter, hw, Checker.onCall, Bus.latched, Line.onCall, Line.word, hl, Device.receive, hd]
  · have hdev : b.devAfter (.tx x) .ok = b.dev := by
      rcases hg with rfl | rfl <;> simp [Bus.devAfter, hw, Checker.onCall, Bus.latched]
    simp [Bus.storesAt, Line.onCall, hl, hdev]

/-- A whole transfer from the line it expects: the same. -/
theorem Bus.replay_xfer (b : Bus) (sh : RsShadow) (reg : Reg) (x : Byte) (d : DevInstr) (rest : List Prim)
    (hl : b.line.rs = sh) (hw : b.watch = .running sh .idle)
    (hd : decodeDevice (deviceWord reg x) = some d) :
    ∃ b' : Bus, b.replay ((xfer sh reg x).1 ++ rest) = b'.replay rest ∧
      b'.watch = .running (.known reg) .idle ∧ b'.line.rs = .known reg ∧ (∃ n, b'.dev = effectOf d n b.dev) ∧
      b.storesAt ((xfer sh reg x).1 ++ rest) = (if reg = .dr then [b.dev.ac] else []) ++ b'.storesAt rest := by
  by_cases hs : sh = .known reg
  · subst hs
    simp only [xfer, if_true, List.nil_append, List.cons_append]
    exact Bus.replay_selected b reg x d rest .idle hl hw (.inl rfl) hd
  · simp only [xfer, hs, if_false, List.cons_append, List.nil_append]
    rw [Bus.replay_cons]
    have h := Bus.replay_selected (b.call (selOf reg) .ok) reg x d rest .selected
      (by cases reg <;> simp [selOf, Line.onCall]) (by cases reg <;> simp [selOf, Checker.onCall, hw]) (.inr rfl) hd
    have hdev : b.devAfter (selOf reg) .ok = b.dev := by
      cases reg <;> simp [selOf, Bus.devAfter, Checker.onCall, hw, Bus.latched]
    have hst : ∀ ps, b.storesAt (selOf reg :: ps) = (b.call (selOf reg) .ok).storesAt ps := by
      intro ps
      cases reg <;> simp [selOf, Bus.storesAt]
    rw [hst]
    simpa [hdev] using h

end Sys2Proof.Machine
end

