-- ==== Sys2Proof/Laws/Instances.lean ====
section
/-! SUPPORT. Several instances on one data bus: what a step of one does to each, and that the byte another instance presented
does not reach an operation that presents its own. -/

namespace Sys2Proof.Machine

@[simp] theorem moveAt_length (f : State → State) (t : State) (i : Nat) (us : List State) :
    (moveAt f t i us).length = us.length := by
  induction us generalizing i with
  | nil => cases i <;> rfl
  | cons u us ih => cases i <;> simp [moveAt, ih]

/-- The mover stands at its place. -/
theorem moveAt_self (f : State → State) (t : State) {i : Nat} {us : List State} {s : State} (h : us[i]? = some s) :
    (moveAt f t i us)[i]? = some t := by
  induction us generalizing i with
  | nil => simp at h
  | cons u us ih =>
    cases i with
    | zero => rfl
    | succ i => exact ih (by simpa using h)

/-- Every other instance is changed by `f`. -/
theorem moveAt_other (f : State → State) (t : State) {i j : Nat} {us : List State} {u : State} (hj : j ≠ i)
    (h : us[j]? = some u) : (moveAt f t i us)[j]? = some (f u) := by
  induction us generalizing i j with
  | nil => simp at h
  | cons x us ih =>
    cases i with
    | zero =>
      cases j with
      | zero => exact absurd rfl hj
      | succ j => simp_all [moveAt]
    | succ i =>
      cases j with
      | zero => simp_all [moveAt]
      | succ j => exact ih (by omega) (by simpa using h)

/-- After a call the instance has issued a primitive. -/
@[simp] theorem endsInCall_append (es : List Event) (e : Event) : endsInCall (es ++ [e]) = isCall e := by
  simp only [endsInCall, List.getLast?_concat]
  cases e <;> rfl

theorem Bench.step_eq {b : Bench} {i : Nat} {s t : State} (h : b.instances[i]? = some s) (hs : Machine.step s = .next t) :
    b.step i = .next (b.moved i s t) := by
  simp [Bench.step, h, hs]

/-- Some other instance is midway exactly if one of those beside `i` is. -/
theorem any_midway_eraseIdx (us : List State) (i : Nat) :
    (us.eraseIdx i).any State.midway = true ↔ ∃ (j : Nat) (u : State), j ≠ i ∧ us[j]? = some u ∧ u.midway = true := by
  induction us generalizing i with
  | nil => simp
  | cons x us ih =>
    cases i with
    | zero =>
      simp only [List.eraseIdx_cons_zero, List.any_eq_true]
      constructor
      · rintro ⟨u, hu, hm⟩
        obtain ⟨j, hj⟩ := List.mem_iff_getElem?.1 hu
        exact ⟨j + 1, u, by omega, by simpa using hj, hm⟩
      · rintro ⟨j, u, hj, h, hm⟩
        cases j with
        | zero => exact absurd rfl hj
        | succ j => exact ⟨u, List.mem_iff_getElem?.2 ⟨j, by simpa using h⟩, hm⟩
    | succ i =>
      simp only [List.eraseIdx_cons_succ, List.any_cons, Bool.or_eq_true, ih]
      constructor
      · rintro (h | ⟨j, u, hj, h, hm⟩)
        · exact ⟨0, x, by omega, rfl, h⟩
        · exact ⟨j + 1, u, by omega, by simpa using h, hm⟩
      · rintro ⟨j, u, hj, h, hm⟩
        cases j with
        | zero => exact .inl (by cases h; exact hm)
        | succ j => exact .inr ⟨j, u, by omega, by simpa using h, hm⟩

/-- The bus with another byte on the data bus. -/
def Bus.withByte (b : Bus) (x : Option Byte) : Bus := { b with line := { b.line with bus := x } }

/-- Before a byte is presented, the byte on the data bus reaches nothing: after calls that end with the contract met the two
buses differ in that byte at most. -/
theorem Bus.replay_withByte (ps : List Prim) (b : Bus) (x : Option Byte) (l l' : RsShadow) (g : Stage)
    (hw : b.watch = .running l g) (hg : g = .idle ∨ g = .selected) (he : (b.replay ps).watch = .running l' .idle) :
    ∃ y, (b.withByte x).replay ps = (b.replay ps).withByte y := by
  induction ps generalizing b l g with
  | nil => exact ⟨x, rfl⟩
  | cons p ps ih =>
    have hv : b.watch.onCall p .ok ≠ .violation := fun h => by
      have h2 := Bus.replay_violation (b.call p .ok) h ps
      rw [Bus.replay_cons, h2] at he
      cases he
    rw [hw] at hv
    cases p with
    | selIr =>
      refine ih (b.call .selIr .ok) (.known .ir) .selected ?_ (.inr rfl) he
      rcases hg with rfl | rfl <;> simp [hw, Checker.onCall]
    | selDr =>
      refine ih (b.call .selDr .ok) (.known .dr) .selected ?_ (.inr rfl) he
      rcases hg with rfl | rfl <;> simp [hw, Checker.onCall]
    | tx v => exact ⟨_, rfl⟩
    | pulse => rcases hg with rfl | rfl <;> exact absurd rfl hv
    | wait d => rcases hg with rfl | rfl <;> exact absurd rfl hv

end Sys2Proof.Machine
end

