-- ==== Sys2Proof/Laws/Memory.lean ====
section
/-! SUPPORT. The display memory: a read after a write, other addresses, and the canonical form kept by every operation. -/

namespace Sys2Proof.Machine

theorem cellLookup_insert_same (a : Nat) (b : Byte) (l : List Host.Cell) :
    cellLookup a (cellInsert a b l) = some b := by
  induction l with
  | nil => simp [cellInsert, cellLookup]
  | cons x rest ih =>
    obtain ⟨k, y⟩ := x
    simp only [cellInsert]
    split
    · simp [cellLookup]
    · split
      · simp [cellLookup]
      · rename_i h1 h2
        simp [cellLookup, Ne.symm h2, ih]

theorem cellLookup_insert_other (a a' : Nat) (b : Byte) (l : List Host.Cell) (h : a' ≠ a) :
    cellLookup a' (cellInsert a b l) = cellLookup a' l := by
  induction l with
  | nil => simp [cellInsert, cellLookup, Ne.symm h]
  | cons x rest ih =>
    obtain ⟨k, y⟩ := x
    simp only [cellInsert]
    split
    · simp [cellLookup, Ne.symm h]
    · split
      · rename_i _ h2
        subst h2
        simp [cellLookup, Ne.symm h]
      · simp [cellLookup, ih]

/-- A read of the address written gives the character written. -/
@[simp] theorem Ddram.read_write_same (m : Ddram) (a : Addr) (b : Byte) :
    (m.write a b).read a.toNat = .char b := by
  simp [Ddram.read, Ddram.write, cellLookup_insert_same]

/-- A write leaves every other address alone. -/
theorem Ddram.read_write_other (m : Ddram) (a : Addr) (b : Byte) (a' : Nat) (h : a' ≠ a.toNat) :
    (m.write a b).read a' = m.read a' := by
  simp [Ddram.read, Ddram.write, cellLookup_insert_other, h]

/-- After a fill every address reads as the fill. -/
@[simp] theorem Ddram.read_filled (f : Fill) (a : Nat) : (Ddram.mk f []).read a = f.toCell := rfl

theorem rising_cons (x : Host.Cell) (l : List Host.Cell) :
    rising (x :: l) = true ↔ (∀ y ∈ l.head?, x.1 < y.1) ∧ rising l = true := by
  cases l with
  | nil => simp [rising]
  | cons y rest => simp [rising]

theorem cellInsert_head (a : Nat) (b : Byte) (l : List Host.Cell) (k : Nat)
    (hk : ∀ y ∈ l.head?, k < y.1) (ha : k < a) : ∀ y ∈ (cellInsert a b l).head?, k < y.1 := by
  cases l with
  | nil => simpa [cellInsert] using ha
  | cons x rest =>
    obtain ⟨m, y⟩ := x
    simp only [cellInsert]
    split
    · simpa using ha
    · split
      · simpa using ha
      · simpa using hk

theorem rising_insert (a : Nat) (b : Byte) (l : List Host.Cell) (h : rising l = true) :
    rising (cellInsert a b l) = true := by
  induction l with
  | nil => rfl
  | cons x rest ih =>
    obtain ⟨k, y⟩ := x
    rw [rising_cons] at h
    simp only [cellInsert]
    split
    · rename_i hlt
      rw [rising_cons, rising_cons]
      exact ⟨by simpa using hlt, h⟩
    · split
      · rename_i _ heq
        subst heq
        rw [rising_cons]
        exact h
      · rename_i h1 h2
        rw [rising_cons]
        exact ⟨cellInsert_head a b rest k h.1 (by omega), ih h.2⟩

theorem mem_insert (a : Nat) (b : Byte) (l : List Host.Cell) (x : Host.Cell) (h : x ∈ cellInsert a b l) :
    x = (a, b) ∨ x ∈ l := by
  induction l with
  | nil => simpa [cellInsert] using h
  | cons y rest ih =>
    obtain ⟨k, z⟩ := y
    simp only [cellInsert] at h
    split at h
    · simpa using h
    · split at h
      · rcases List.mem_cons.mp h with h | h
        · exact .inl h
        · exact .inr (List.mem_cons_of_mem _ h)
      · rcases List.mem_cons.mp h with h | h
        · exact .inr (by simp [h])
        · exact (ih h).imp_right (List.mem_cons_of_mem _)

/-- A write keeps the canonical form. -/
theorem Ddram.write_wf (m : Ddram) (a : Addr) (b : Byte) (h : m.wf = true) : (m.write a b).wf = true := by
  simp only [Ddram.wf, Bool.and_eq_true, List.all_eq_true, decide_eq_true_eq] at h ⊢
  refine ⟨rising_insert _ _ _ h.1, fun x hx => ?_⟩
  rcases mem_insert _ _ _ _ hx with hx | hx
  · subst hx
    exact a.isLt
  · exact h.2 x hx

/-- Where the spec and log 11 state it, the counter's step on is one. -/
theorem nextAddr_plain (two : Bool) (n : Nat) (a : Addr) (h : two = false ∨ (a ≠ 0x27 ∧ a ≠ 0x67)) (h' : a ≠ 0x7F) :
    nextAddr two n a = a + 1 := by
  have e3 : (a == 0x7F) = false := beq_false_of_ne h'
  rcases h with rfl | ⟨h1, h2⟩
  · simp only [nextAddr, Bool.false_and, e3, Bool.false_eq_true, if_false]
  · have e1 : (a == 0x27) = false := beq_false_of_ne h1
    have e2 : (a == 0x67) = false := beq_false_of_ne h2
    simp only [nextAddr, e1, e2, e3, Bool.and_false, Bool.false_eq_true, if_false]

/-- Where log 11 states it, the counter's step back is one. -/
theorem prevAddr_plain (two : Bool) (n : Nat) (a : Addr) (h : two = false ∨ a ≠ 0x40) (h' : a ≠ 0x00) :
    prevAddr two n a = a - 1 := by
  have e0 : (a == 0x00) = false := beq_false_of_ne h'
  rcases h with rfl | h1
  · simp only [prevAddr, Bool.false_and, e0, Bool.false_eq_true, if_false]
  · have e1 : (a == 0x40) = false := beq_false_of_ne h1
    simp only [prevAddr, e0, e1, Bool.and_false, Bool.false_eq_true, if_false]

/-- Every word of the encoder's set keeps the canonical form. -/
theorem effectOf_wf (i : DevInstr) (n : Nat) (d : Device) (h : d.ddram.wf = true) :
    (effectOf i n d).ddram.wf = true := by
  cases i with
  | data b => exact Ddram.write_wf _ _ _ h
  | clearDisplay => rfl
  | _ => exact h

/-- So does every word that is no row of the table. -/
theorem Device.unlisted_wf (d : Device) (w : DevWord) (n : Nat) (h : d.ddram.wf = true) :
    (d.unlisted w n).ddram.wf = true := by
  unfold Device.unlisted
  repeat' split
  all_goals first | exact h | rfl

/-- So does every word received. -/
theorem Device.receive_wf (d : Device) (w : DevWord) (n : Nat) (h : d.ddram.wf = true) :
    (d.receive w n).ddram.wf = true := by
  unfold Device.receive
  split
  · exact effectOf_wf _ _ _ h
  · exact Device.unlisted_wf _ _ _ h

/-- So does every call. -/
theorem Bus.devAfter_wf (b : Bus) (p : Prim) (a : Answer) (h : b.dev.ddram.wf = true) :
    (b.devAfter p a).ddram.wf = true := by
  unfold Bus.devAfter
  split
  · rfl
  · generalize b.dev = d at h
    induction b.latched p a generalizing d with
    | nil => exact h
    | cons w ws ih => exact ih _ (Device.receive_wf _ _ _ h)

/-- A change of the controller keeps the canonical form if the change does. -/
theorem Bus.change_wf (b : Bus) (f : Nat → Device → Device) (h : b.dev.ddram.wf = true)
    (hf : ∀ n d, d.ddram.wf = true → (f n d).ddram.wf = true) : (b.change f).dev.ddram.wf = true := by
  unfold Bus.change
  split
  · rfl
  · exact hf _ _ h

/-- The reset memory has the canonical form. -/
theorem Device.reset_wf (c : Config) : (Device.reset c).ddram.wf = true := rfl

end Sys2Proof.Machine
end

