-- ==== Sys2Proof/Laws/PerInstr.lean ====
section
/-! SUPPORT. Per-instruction family EncodedForm: an instruction's encoding is a canonical form of the instruction's own
column of the opcode table (R48, R49, R54, R55). -/

namespace Sys2Proof.Laws.EncodedForm

open Sys2Proof Sys2Proof.Machine

def Statement (i : Instr) : Prop := (encode i).wellFormed = true ∧ (encode i).format = i.format

theorem clearDisplay : Statement .clearDisplay := ⟨by decide, rfl⟩

theorem returnHome : Statement .returnHome := ⟨by decide, rfl⟩

theorem displayOnCursorOffBlinkOff : Statement .displayOnCursorOffBlinkOff := ⟨by decide, rfl⟩

theorem displayOnCursorOffBlinkOn : Statement .displayOnCursorOffBlinkOn := ⟨by decide, rfl⟩

theorem displayOnCursorOnBlinkOff : Statement .displayOnCursorOnBlinkOff := ⟨by decide, rfl⟩

theorem displayOnCursorOnBlinkOn : Statement .displayOnCursorOnBlinkOn := ⟨by decide, rfl⟩

theorem entryModeSet : Statement .entryModeSet := ⟨by decide, rfl⟩

theorem functionSet : Statement .functionSet := ⟨by decide, rfl⟩

theorem cursorShiftLeft : Statement .cursorShiftLeft := ⟨by decide, rfl⟩

theorem cursorShiftRight : Statement .cursorShiftRight := ⟨by decide, rfl⟩

theorem setDdramAddress (a : Addr) : Statement (.setDdramAddress a) :=
  ⟨by revert a; decide, rfl⟩

theorem dataWrite (d : Byte) : Statement (.dataWrite d) :=
  ⟨by revert d; decide, rfl⟩

theorem init : Statement .init := ⟨by decide, rfl⟩

theorem clear : Statement .clear := ⟨by decide, rfl⟩

theorem setCursor (col row : Nat) : Statement (.setCursor col row) := ⟨rfl, rfl⟩

theorem writeText (text : List Byte) : Statement (.writeText text) := ⟨rfl, rfl⟩

theorem selIr : Statement .selIr := ⟨by decide, rfl⟩

theorem selDr : Statement .selDr := ⟨by decide, rfl⟩

theorem tx (b : Byte) : Statement (.tx b) := ⟨rfl, rfl⟩

theorem pulse : Statement .pulse := ⟨by decide, rfl⟩

theorem waitShort : Statement .waitShort := ⟨by decide, rfl⟩

theorem waitLong : Statement .waitLong := ⟨by decide, rfl⟩

end Sys2Proof.Laws.EncodedForm
end

