-- ==== Sys2Proof/Machine/Written.lean ====
section
/-! DEFINITION. The spec's written forms of primitives, requests and responses (R59). -/

namespace Sys2Proof.Machine

def hexDigit (n : Nat) : Char := "0123456789ABCDEF".toList.getD n '?'

/-- A byte as `0xHH`. -/
def writtenByte (b : Byte) : String := "0x" ++ String.ofList [hexDigit (b.toNat / 16), hexDigit (b.toNat % 16)]

def writtenPrim : Prim → String
  | .selIr => "SEL_IR"
  | .selDr => "SEL_DR"
  | .tx b => "TX " ++ writtenByte b
  | .pulse => "PULSE"
  | .wait .short => "WAIT_SHORT"
  | .wait .long => "WAIT_LONG"

def writtenRequest : Request → String
  | .init => "INIT"
  | .clear => "CLEAR"
  | .setCursor c r => "SETCUR " ++ toString c ++ ", " ++ toString r
  | .writeText t => "WRITE [" ++ String.intercalate ", " (t.map writtenByte) ++ "]"

def writtenTag : OpTag → String
  | .init => "INIT"
  | .clear => "CLEAR"
  | .setCursor => "SET_CURSOR"
  | .writeText => "WRITE_TEXT"

def writtenKind : ErrKind → String
  | .cursorOutOfRange => "CursorOutOfRange"
  | .textOverflow => "TextOverflow"
  | .transportError => "TransportError"
  | .desynchronized => "Desynchronized"

def writtenResponse : Response → String
  | .done t => "DONE " ++ writtenTag t
  | .err t k => "ERR " ++ writtenTag t ++ " " ++ writtenKind k

/-- The bytes a quoted string stands for (R59). -/
def quoted (cs : List Char) : List Byte := cs.map fun ch => BitVec.ofNat 8 ch.toNat

end Sys2Proof.Machine
end

