-- ==== Sys2Proof/Tests/Slice0.lean ====
section
/-! SUPPORT. Tests against spec/95_test_vectors.md and the tables of spec/30 and spec/40, and one witness for the hypotheses
of each obligation. -/

namespace Sys2Proof.Tests

open Sys2Proof Sys2Proof.Machine

/-! ### Small states -/

/-- The configurations spec/95 names. -/
def g16x2 : Config := Config.ofSize 16 2

def g20x4 : Config := Config.ofSize 20 4

def g40x2 : Config := Config.ofSize 40 2

/-- spec/95's configuration whose first row starts at 0x10. -/
def shifted : Config := { g16x2 with w := 24, rowBase := [0x10, 0x50] }

/-- The controller after an Init: two-line mode, increment, blank, counter at the first cell. -/
def initialized (c : Config) : Device :=
  { Device.reset c with ac := addrOperand c 0, twoLines := true, displayOn := true,
                        ddram := { fill := .blank, cells := [] } }

/-- The trace of a completed Init. -/
def initTrace : List Event := (initSeq .unknown).map (fun p => .call p .ok) ++ [.resp (.done .init)]

/-- Ready(q, rs) of spec/95, every cell Blank. -/
def ready (c : Config) (q : Nat) (rs : RsShadow) : State :=
  { cfg := c
    seq := { phase := .ready, op := none, pend := [], post := initPost c, rs := rs, cur := some q, buf := filled c .blank,
             last := some (.done .init), trace := initTrace }
    port := []
    bus := { line := { rs := rs, bus := some 0x01 }, watch := .running rs .idle, inbox := [], dev := initialized c,
             answers := [], draws := 0 } }

def desync (c : Config) : State :=
  { State.ofConfig c with
    seq := { Seq.reset c with phase := .desync, op := none, pend := [],
                              last := some (.err .init .transportError),
                              trace := [.call .selIr .fail, .resp (.err .init .transportError)] } }

/-- An operation in progress with these calls to come and these answers fixed. -/
def busy (op : OpTag) (ps : List Prim) (as : List Answer) : State :=
  let s := ready g16x2 0 (.known .ir)
  { s with seq := { s.seq with phase := .busy, op := some op, pend := ps }
           bus := { s.bus with answers := as } }

/-- A state whose controller is at an address, in two-line mode. -/
def atAddr (a : Addr) : State :=
  let s := ready g16x2 0 (.known .ir)
  { s with bus := { s.bus with dev := { s.bus.dev with ac := a } } }

def violated : State := { State.reset with bus := { Bus.reset g16x2 with watch := .violation } }

def seqOf : Result → Option Seq
  | .next t => some t.seq
  | _ => none

def busOf : Result → Option Bus
  | .next t => some t.bus
  | _ => none

def acOf (r : Result) : Option Addr := (busOf r).map fun b => b.dev.ac

def pendOf (r : Result) : Option (List Prim) := (seqOf r).map Seq.pend

def postOf (r : Result) : Option (RsShadow × Nat) := (seqOf r).map fun S => (S.post.rs, S.post.cur)

def lastOf (r : Result) : Option Response := (seqOf r).bind Seq.last

/-- The checker of R109 over calls answered Ok rejects them. -/
def rejects (ps : List Prim) : Bool := (Checker.running .unknown .idle).onPrims ps == .violation

/-! ### Well-formed encoded forms -/

/-- R49: a return-home word with its don't-care bit set is not the encoder's form. -/
theorem test_wf_dont_care : (Encoded.dev 0b000000011).wellFormed = false := by decide

/-- Log 32: an INIT record with a column, a SET_CURSOR record with a text and a WRITE_TEXT record with a row are not the
encoder's form. -/
theorem test_wf_unread_fields :
    (Encoded.req ⟨0b00, 1, 0, []⟩).wellFormed = false ∧ (Encoded.req ⟨0b10, 0, 0, [0x41]⟩).wellFormed = false ∧
    (Encoded.req ⟨0b11, 0, 1, [0x41]⟩).wellFormed = false := by decide

theorem test_wf_canonical :
    (Encoded.dev 0b000000010).wellFormed = true ∧ (Encoded.req ⟨0b10, 3, 1, []⟩).wellFormed = true ∧
    (Encoded.prim 0x7FF).wellFormed = true := by decide

/-! ### Decoding, each word written out from the encoding tables -/

/-- spec/95 2.1: the device words. -/
theorem test_decode_device_words :
    decode (.dev 0b000000001) = .ok .clearDisplay ∧ decode (.dev 0b000000010) = .ok .returnHome ∧
    decode (.dev 0b000001100) = .ok .displayOnCursorOffBlinkOff ∧
    decode (.dev 0b000001101) = .ok .displayOnCursorOffBlinkOn ∧
    decode (.dev 0b000001110) = .ok .displayOnCursorOnBlinkOff ∧
    decode (.dev 0b000001111) = .ok .displayOnCursorOnBlinkOn ∧
    decode (.dev 0b000000110) = .ok .entryModeSet ∧ decode (.dev 0b000111000) = .ok .functionSet ∧
    decode (.dev 0b000010000) = .ok .cursorShiftLeft ∧ decode (.dev 0b000010100) = .ok .cursorShiftRight ∧
    decode (.dev 0b011111111) = .ok (.setDdramAddress 0x7F) ∧ decode (.dev 0b100000001) = .ok (.dataWrite 0x01) := by
  decide

/-- R49, R57: don't-care bits are ignored; display off, a display shift, CGRAM, 4-bit function set and 0x00 are no rows. -/
theorem test_decode_device_rejects :
    decode (.dev 0b000111011) = .ok .functionSet ∧ decode (.dev 0b000010111) = .ok .cursorShiftRight ∧
    [0b000000000, 0b000000100, 0b000001000, 0b000011000, 0b000100000, 0b000110000, 0b001000000].all
      (fun w => decode (.dev w) == .error .unlistedDeviceWord) = true := by decide

/-- R54: the request tags. -/
theorem test_decode_requests :
    decode (.req ⟨0b00, 0, 0, []⟩) = .ok .init ∧ decode (.req ⟨0b01, 0, 0, []⟩) = .ok .clear ∧
    decode (.req ⟨0b10, 1000000000, 2, []⟩) = .ok (.setCursor 1000000000 2) ∧
    decode (.req ⟨0b11, 0, 0, [0x48, 0x69]⟩) = .ok (.writeText [0x48, 0x69]) := by decide

/-- R55, R57: the call words, the reserved codes and a stray operand. -/
theorem test_decode_primitives :
    decode (.prim 0b00000000000) = .ok .selIr ∧ decode (.prim 0b00100000000) = .ok .selDr ∧
    decode (.prim 0b01011000000) = .ok (.tx 0xC0) ∧ decode (.prim 0b01100000000) = .ok .pulse ∧
    decode (.prim 0b10000000000) = .ok .waitShort ∧ decode (.prim 0b10100000000) = .ok .waitLong ∧
    decode (.prim 0b11000000000) = .error .reservedPrimCode ∧ decode (.prim 0b11111111111) = .error .reservedPrimCode ∧
    decode (.prim 0b01100000001) = .error .operandNotZero := by decide

/-- spec/95 2.1: the device word of every encoder input. -/
theorem test_encode_device_words :
    [DevInstr.clearDisplay, .returnHome, .displayOn false false, .displayOn false true, .displayOn true false,
     .displayOn true true, .entryModeSet, .functionSet, .cursorShiftLeft, .cursorShiftRight, .setDdramAddress 0x00,
     .setDdramAddress 0x40, .setDdramAddress 0x7F, .data 0x41, .data 0x00, .data 0x01, .data 0xFF].map encodeDevice =
    [0b000000001, 0b000000010, 0b000001100, 0b000001101, 0b000001110, 0b000001111, 0b000000110, 0b000111000,
     0b000010000, 0b000010100, 0b010000000, 0b011000000, 0b011111111, 0b101000001, 0b100000000, 0b100000001,
     0b111111111] := by decide

/-- spec/95 2.1: `delayOf`. -/
theorem test_delay_classes :
    [0x01, 0x02, 0x03].all (fun b => delayOf .ir b == .long) = true ∧
    [0x00, 0x04, 0x38, 0x80].all (fun b => delayOf .ir b == .short) = true ∧
    [0x01, 0x02].all (fun b => delayOf .dr b == .short) = true := by decide

/-- No two rows of the device-word table share a word (R49): some bit that both of them count differs. -/
theorem test_rows_never_overlap :
    devRows.Pairwise (fun r1 r2 => (r1.value ^^^ r2.value) &&& (r1.mask &&& r2.mask) ≠ 0) := by decide

/-- R56: the response codes. -/
theorem test_response_codes :
    encodeResponse (.done .writeText) = (0b11, 0) ∧ encodeResponse (.err .clear .desynchronized) = (0b01, 4) ∧
    encodeResponse (.err .setCursor .cursorOutOfRange) = (0b10, 1) ∧
    encodeResponse (.err .writeText .textOverflow) = (0b11, 2) ∧
    encodeResponse (.err .init .transportError) = (0b00, 3) ∧
    decodeResponse 0b01 5 = .error .reservedStatus := by decide

/-- The opcode table's own numbers, one of each column. -/
theorem test_table_words :
    decodeTableWord 8 0b10 = some (.setCursor 0 0) ∧ decodeTableWord 9 0b010000000 = some (.setDdramAddress 0x00) ∧
    decodeTableWord 16 0b000111000 = some .functionSet ∧ decodeTableWord 16 0x500 = some .waitLong ∧
    decodeTableWord 11 0x238 = some (.tx 0x38) ∧ decodeTableWord 16 0x100 = some .selDr ∧
    decodeTableWord 9 0x040 = none ∧ decodeTableWord 11 0x600 = none := by decide

/-- The encoder's word for a device row and for a call. -/
theorem test_table_steps :
    acOf (step (State.reset.withFetchWord 16 0b011000011)) = some 0x43 ∧
    (busOf (step (State.reset.withFetchWord 16 0x400))).map Bus.inbox = some [] ∧
    lastOf (step (State.reset.withFetchWord 8 0b11)) = some (.done .writeText) := by decide

/-! ### Addresses, construction, transfers -/

/-- spec/95 2.2: the set-DDRAM byte of a cell. -/
theorem test_address_bytes :
    [(0, 0), (15, 0), (0, 1), (3, 1), (5, 1), (15, 1)].map
      (fun x => setDdramByte (addrOperand g16x2 (position g16x2 x.1 x.2))) = [0x80, 0x8F, 0xC0, 0xC3, 0xC5, 0xCF] ∧
    [(19, 0), (19, 1), (0, 2), (0, 3), (19, 3)].map
      (fun x => setDdramByte (addrOperand g20x4 (position g20x4 x.1 x.2))) = [0x93, 0xD3, 0x94, 0xD4, 0xE7] ∧
    [(39, 0), (39, 1)].map
      (fun x => setDdramByte (addrOperand g40x2 (position g40x2 x.1 x.2))) = [0xA7, 0xE7] := by decide

/-- spec/95 2.3: configurations that construction admits. -/
theorem test_construction_admits :
    [g20x4, Config.ofSize 16 4, Config.ofSize 16 3, Config.ofSize 40 1, Config.ofSize 1 1,
     shifted].all (fun c => checkConfig c == .ok ()) = true := by decide

theorem test_construction_admits_40x2 : checkConfig g40x2 = .ok () := by decide

/-- spec/95 2.3: configurations that construction refuses. -/
theorem test_construction_refuses :
    checkConfig { g16x2 with w := 0, transportBound := false } = .error .unboundTransport ∧
    [{ g16x2 with w := 0 }, { g16x2 with h := 0 }, { g16x2 with rowBase := [0x00] },
     { g16x2 with rowBase := [0x00, 0x80] }, Config.ofSize 20 5, Config.ofSize 41 1, Config.ofSize 40 4,
     { g16x2 with rowBase := [0x00, 0x00] }, { g20x4 with rowBase := [0x00, 0x40, 0x10, 0x50] }].all
      (fun c => checkConfig c == .error .invalidGeometry) = true := by decide

/-- spec/95 2.4. -/
theorem test_transfers :
    xfer .unknown .ir 0x38 = ([.selIr, .tx 0x38, .pulse, .wait .short], .known .ir) ∧
    xfer (.known .ir) .ir 0x01 = ([.tx 0x01, .pulse, .wait .long], .known .ir) ∧
    xfer (.known .dr) .ir 0xC0 = ([.selIr, .tx 0xC0, .pulse, .wait .short], .known .ir) ∧
    xfer (.known .ir) .dr 0x41 = ([.selDr, .tx 0x41, .pulse, .wait .short], .known .dr) ∧
    xfer (.known .dr) .dr 0x01 = ([.tx 0x01, .pulse, .wait .short], .known .dr) := by decide

/-! ### Requests -/

/-- spec/95 S1: the thirteen call words of the first Init. -/
theorem test_reset_init_words :
    State.reset.seq.pend.map encodePrim =
      [0x000, 0x238, 0x300, 0x400, 0x20C, 0x300, 0x400, 0x206, 0x300, 0x400, 0x201, 0x300, 0x500] := by decide

/-- spec/95 2.5: Init from Known(DR) and from Known(IR). -/
theorem test_init :
    (pendOf (exec .init (ready g16x2 2 (.known .dr)))).map (List.map encodePrim) =
      some [0x000, 0x238, 0x300, 0x400, 0x20C, 0x300, 0x400, 0x206, 0x300, 0x400, 0x201, 0x300, 0x500] ∧
    (pendOf (exec .init (ready g16x2 0 (.known .ir)))).map List.length = some 12 := by decide

/-- spec/95 2.6: Clear at the end, and in Desync. -/
theorem test_clear :
    (pendOf (exec .clear (ready g16x2 32 (.known .dr)))).map (List.map encodePrim) =
      some [0x000, 0x201, 0x300, 0x500] ∧
    lastOf (exec .clear (desync g16x2)) = some (.err .clear .desynchronized) := by decide

/-- spec/95 2.7: SetCursor in range. -/
theorem test_set_cursor :
    (pendOf (exec (.setCursor 15 1) (ready g16x2 0 (.known .ir)))).map (List.map encodePrim) =
      some [0x2CF, 0x300, 0x400] ∧
    (pendOf (exec (.setCursor 5 1) (ready g16x2 2 (.known .dr)))).map (List.map encodePrim) =
      some [0x000, 0x2C5, 0x300, 0x400] ∧
    postOf (exec (.setCursor 5 1) (ready g16x2 2 (.known .dr))) = some (.known .ir, 21) := by decide

/-- spec/95 2.7: SetCursor out of range, and in Desync, where Desynchronized comes first (R117). -/
theorem test_set_cursor_rejected :
    [(16, 0), (0, 2), (1000000000, 1000000000)].all
      (fun x => lastOf (exec (.setCursor x.1 x.2) (ready g16x2 0 (.known .ir))) ==
        some (.err .setCursor .cursorOutOfRange)) = true ∧
    lastOf (exec (.setCursor 16 0) (desync g16x2)) = some (.err .setCursor .desynchronized) := by decide

/-- spec/95 2.8: the wrap at the end of a row, its re-address and the select after it. -/
theorem test_write_text_wraps :
    (pendOf (exec (.writeText (quoted ['X', 'Y'])) (ready g16x2 15 (.known .ir)))).map (List.map encodePrim) =
      some [0x100, 0x258, 0x300, 0x400, 0x000, 0x2C0, 0x300, 0x400, 0x100, 0x259, 0x300, 0x400] ∧
    postOf (exec (.writeText [0x58]) (ready g16x2 15 (.known .ir))) = some (.known .ir, 16) ∧
    postOf (exec (.writeText [0x5A]) (ready g16x2 31 (.known .ir))) = some (.known .dr, 32) ∧
    (pendOf (exec (.writeText [0x5A]) (ready g16x2 31 (.known .ir)))).map List.length = some 4 := by decide

/-- spec/95 2.8: overflow, the empty text at the end, and the empty text in Desync. -/
theorem test_write_text_answers :
    lastOf (exec (.writeText [0x58, 0x59, 0x5A]) (ready g16x2 30 (.known .ir))) = some (.err .writeText .textOverflow) ∧
    lastOf (exec (.writeText [0x51]) (ready g16x2 32 (.known .dr))) = some (.err .writeText .textOverflow) ∧
    lastOf (exec (.writeText []) (ready g16x2 32 (.known .dr))) = some (.done .writeText) ∧
    lastOf (exec (.writeText []) (desync g16x2)) = some (.err .writeText .desynchronized) := by decide

/-- spec/95 2.8: 32 characters are 102 calls; a row of one column wraps after every character. -/
theorem test_write_text_counts :
    (writeSeq g16x2 (.known .ir) 0 (List.replicate 32 0x41)).1.length = 102 ∧
    (writeSeq { g16x2 with w := 1 } (.known .ir) 0 [0x41, 0x42]).1.map encodePrim =
      [0x100, 0x241, 0x300, 0x400, 0x000, 0x2C0, 0x300, 0x400, 0x100, 0x242, 0x300, 0x400] ∧
    (writeSeq g40x2 (.known .ir) 38 [0x41, 0x42, 0x43]).1.length = 15 := by decide

/-! ### Primitives -/

/-- R96, R104: a select answered Ok and answered Fail. -/
theorem test_sel_ir :
    (busOf (exec .selIr (busy .clear [.selIr, .pulse] [.ok]))).map Bus.line = some ⟨.known .ir, some 0x01⟩ ∧
    (busOf (exec .selIr (busy .clear [.selIr, .pulse] [.fail]))).map Bus.line = some ⟨.unknown, none⟩ := by decide

theorem test_sel_dr :
    (busOf (exec .selDr (busy .clear [.selIr] [.ok]))).map Bus.line = some ⟨.known .dr, some 0x01⟩ ∧
    pendOf (exec .selDr (busy .clear [.selIr] [.ok])) = some [.selIr] := by decide

/-- spec/95 2.6: the failed byte of a Clear leads to Desync. -/
theorem test_tx_fails :
    (seqOf (exec (.tx 0x01) (busy .clear [.tx 0x01, .pulse, .wait .long] [.fail]))).map
      (fun S => (S.phase, S.rs, S.cur, S.last)) =
      some (.desync, .unknown, none, some (.err .clear .transportError)) := by decide

/-- A clear with its byte presented, from a counter at 0x43. -/
def presented : State :=
  let s := busy .clear [.pulse, .wait .long] [.ok]
  { s with bus := { s.bus with watch := .running (.known .ir) (.presented 0x01), dev := { s.bus.dev with ac := 0x43 } } }

/-- R103, R105: the pulse latches the line's register and byte, here the clear word. -/
theorem test_pulse : acOf (exec .pulse presented) = some 0x00 := by decide

/-- R109, R111: a short wait after the clear's pulse is a Violation, and nothing is known of the display (K3). -/
theorem test_violation_unspecified :
    (let s := busy .clear [.wait .short] []
     busOf (exec .waitShort { s with bus := { s.bus with watch := .running (.known .ir) (.pulsed 0x01) } })).map
      (fun b => (b.watch, b.dev.ddram.read 0x00)) = some (.violation, .unknown) := by decide

/-- R116, U7: after a select past the sequencer a SetCursor does not make the display known; an Init starts afresh on the
shadow. -/
theorem test_init_restarts :
    (busOf (exec (.setCursor 3 1) ((ready g16x2 5 (.known .ir)).bypass .selDr))).map
      (fun b => (b.watch, b.dev.ddram.read 0x00)) = some (.violation, .unknown) ∧
    (busOf (exec .init ((ready g16x2 5 (.known .ir)).bypass .selDr))).map (fun b => (b.watch, b.line.rs)) =
      some (.running (.known .ir) .idle, .known .ir) := by decide

/-- R100: a wait past the sequencer touches nothing. -/
theorem test_stray_wait :
    ((ready g16x2 5 (.known .dr)).bypass (.wait .short)).bus.watch = .running (.known .dr) .idle ∧
    ((ready g16x2 5 (.known .dr)).bypass (.wait .short)).bus.dev = initialized g16x2 := by decide

/-- R81: the last wait commits. -/
theorem test_wait_commits :
    (seqOf (exec .waitLong (busy .clear [.wait .long] []))).map (fun S => (S.phase, S.rs, S.cur, S.last)) =
      some (.ready, .known .ir, some 0, some (.done .clear)) ∧
    (seqOf (exec .waitShort (busy .clear [.wait .short, .selIr] []))).map Seq.phase = some .busy := by decide

/-! ### Device words -/

/-- R105, R34: a data word at the end of the first line. -/
theorem test_data_wraps :
    acOf (exec (.dataWrite 0x41) (atAddr 0x27)) = some 0x40 ∧ acOf (exec (.dataWrite 0x41) (atAddr 0x67)) = some 0x00 ∧
    (busOf (exec (.dataWrite 0x41) (atAddr 0x0F))).map (fun b => (b.dev.ddram.read 0x0F, b.dev.ddram.read 0x10)) =
      some (.char 0x41, .blank) := by decide

theorem test_clear_display :
    (busOf (exec .clearDisplay (atAddr 0x43))).map (fun b => (b.dev.ac, b.dev.ddram.read 0x43)) =
      some (0x00, .blank) := by decide

/-- R34, R37 (log 20): where the first row starts at 0x10 a clear leaves the counter there, and a text starts there. -/
theorem test_clear_shifted :
    acOf (exec .clearDisplay (ready shifted 5 (.known .ir))) = some 0x10 ∧
    (ready shifted 0 (.known .ir)).bus.storesAt (writeSeq shifted (.known .ir) 0 [0x41, 0x42]).1 = [0x10, 0x11] := by
  decide

/-- R50, R64, R65: C is bit 1 and B is bit 0. -/
theorem test_display_bits :
    (busOf (exec .displayOnCursorOffBlinkOn State.reset)).map (fun b => (b.dev.displayOn, b.dev.cursorOn, b.dev.blinkOn)) =
      some (true, false, true) ∧
    (busOf (exec .displayOnCursorOnBlinkOff State.reset)).map (fun b => (b.dev.displayOn, b.dev.cursorOn, b.dev.blinkOn)) =
      some (true, true, false) := by decide

/-- R50, R67: I/D = 1, S = 0. -/
theorem test_entry_mode :
    (busOf (exec .entryModeSet State.reset)).map (fun b => (b.dev.increment, b.dev.shiftOnWrite)) =
      some (true, false) := by decide

/-- R50, R68: DL = 1, N = 1, F = 0. -/
theorem test_function_set :
    (busOf (exec .functionSet State.reset)).map (fun b => (b.dev.dataLen8, b.dev.twoLines, b.dev.font5x10)) =
      some (true, true, false) := by decide

/-- R49, R50: a 4-bit function set, the display shifts and an entry mode with S = 1, no rows of the table. -/
theorem test_unlisted_words :
    (busOf (step ((atAddr 0x43).placeWord 0b000100000))).map
      (fun b => (b.dev.dataLen8, b.dev.twoLines, b.dev.ac, b.dev.ddram.read 0x43)) = some (false, false, 0x43, .blank) ∧
    (busOf (step ((atAddr 0x43).placeWord 0b000011100))).map (fun b => b.dev.displayShift) = some 1 ∧
    (busOf (step ((atAddr 0x43).placeWord 0b000011000))).map (fun b => b.dev.displayShift) = some (-1) ∧
    (busOf (step ((atAddr 0x43).placeWord 0b000000101))).map (fun b => (b.dev.increment, b.dev.shiftOnWrite)) =
      some (false, true) := by decide

/-! ### Checker, observations, durations, written forms -/

/-- spec/95 2.9: the traces that are Violations (K2, K3, K5, K7, K8, K9, K12, K14, K15). -/
theorem test_checker_rejects :
    [[.tx 0x01, .pulse, .wait .long], [.selIr, .tx 0x01, .pulse, .wait .short], [.selIr, .tx 0x03, .pulse, .wait .short],
     [.selIr, .pulse], [.selIr, .tx 0x38, .pulse, .tx 0x0C], [.selIr, .tx 0x38, .selDr, .pulse, .wait .short],
     [.selIr, .tx 0x38, .tx 0x39, .pulse, .wait .short], [.selIr, .tx 0x38, .pulse, .pulse],
     [.wait .short]].all rejects = true := by decide

/-- spec/95 2.9: the traces that are ok (K1, K4, K6, K10, K11, K13, K16). -/
theorem test_checker_accepts :
    [[.selIr, .tx 0x01, .pulse, .wait .long], [.selIr, .tx 0x02, .pulse, .wait .long],
     [.selDr, .tx 0x01, .pulse, .wait .short], [.selIr, .tx 0x38, .pulse, .wait .long],
     [.selIr, .selDr, .tx 0x41, .pulse, .wait .short],
     [.selIr, .tx 0x38, .pulse, .wait .short, .tx 0x0C, .pulse, .wait .short],
     [.selIr, .tx 0x38, .pulse, .wait .short, .selDr, .tx 0x41, .pulse, .wait .short]].all
      (fun ps => rejects ps == false) = true := by decide

/-- spec/95 2.9, K17 and K18: after a failed call the line is unknown. -/
theorem test_checker_after_fail :
    checkTrace [.call .selIr .ok, .call (.tx 0x38) .fail, .call (.tx 0x38) .ok] = .violation ∧
    checkTrace [.call .selIr .ok, .call (.tx 0x38) .fail, .call .selIr .ok, .call (.tx 0x38) .ok, .call .pulse .ok,
      .call (.wait .short) .ok] = .running (.known .ir) .idle := by decide

/-- spec/95 2.10. -/
theorem test_observations :
    State.reset.cursorView = .unknown ∧ State.reset.cellView 0 0 = .ok .unknown ∧
    (ready g16x2 0 (.known .ir)).cursorView = .at 0 0 ∧ (ready g16x2 21 (.known .dr)).cursorView = .at 5 1 ∧
    (ready g16x2 32 (.known .dr)).cursorView = .past ∧
    (ready g16x2 0 (.known .ir)).cellView 16 0 = .error .cellOutsideGeometry := by decide

/-- spec/95 2.11. -/
theorem test_durations :
    minTime g16x2 (initSeq .unknown) = 1665 ∧ minTime g16x2 (clearSeq (.known .dr)) = 1530 ∧
    minTime g16x2 (writeSeq g16x2 (.known .ir) 0 (List.replicate 32 0x41)).1 = 1485 := by decide

/-- R59. -/
theorem test_written_forms :
    writtenPrim (.tx 0xC3) = "TX 0xC3" ∧ writtenRequest (.setCursor 3 1) = "SETCUR 3, 1" ∧
    writtenResponse (.err .writeText .textOverflow) = "ERR WRITE_TEXT TextOverflow" ∧
    quoted ['H', 'i'] = [0x48, 0x69] := by decide

/-! ### Witnesses: for each obligation with hypotheses, operands that meet all of them -/

theorem witness_EncodeOfDecodeIsIdentity :
    ((Encoded.dev 0x0C0).wellFormed = true ∧ decode (.dev 0x0C0) = .ok (.setDdramAddress 0x40)) ∧
    ((Encoded.req ⟨0b10, 0, 1, []⟩).wellFormed = true ∧ decode (.req ⟨0b10, 0, 1, []⟩) = .ok (.setCursor 0 1)) ∧
    ((Encoded.prim 0x2FF).wellFormed = true ∧ decode (.prim 0x2FF) = .ok (.tx 0xFF)) := by decide

theorem witness_ReservedCodesRefused :
    0x600 ≤ (0x600 : CallWord).toNat ∧ 0x600 ≤ (0x7FF : CallWord).toNat ∧ 5 ≤ (5 : BitVec 3).toNat ∧
    5 ≤ (7 : BitVec 3).toNat := by decide

/-- One witness per clause: nothing waiting, a word at the controller, a pending call, a waiting request. -/
theorem witness_StepRunsDecodedInstruction :
    (∃ s : State, s.bus.inbox = [] ∧ s.seq.phase ≠ .busy ∧ s.port = []) ∧
    ((State.reset.placeWord 0x0C0).bus.inbox = [0x0C0] ∧ decode (.dev 0x0C0) = .ok (.setDdramAddress 0x40)) ∧
    (State.reset.bus.inbox = [] ∧ State.reset.Issues .init .selIr (initSeq (.known .ir)) ∧
      decodePrim 0x000 = .ok .selIr ∧ decode (.prim 0x000) = .ok .selIr) ∧
    (∃ s : State, s.bus.inbox = [] ∧ s.seq.phase ≠ .busy ∧ s.port = [.clear] ∧
      decodeRequest ⟨0b01, 0, 0, []⟩ = .clear ∧ decode (.req ⟨0b01, 0, 0, []⟩) = .ok .clear) :=
  ⟨⟨ready g16x2 0 (.known .ir), by decide⟩, by decide, by decide, { ready g16x2 0 (.known .ir) with port := [.clear] },
    by decide⟩

theorem witness_PlacedInstructionIsFetched :
    decode (.dev 0x0C0) = .ok (.setDdramAddress 0x40) ∧ decode (.req ⟨0b00, 0, 0, []⟩) = .ok .init ∧
    decode (.prim 0x500) = .ok .waitLong := by decide

/-- Each clause: unbound; bound and one column too wide; bound and every check met at the widest geometry. -/
theorem witness_ConstructionChecksInOrder :
    ({ g16x2 with transportBound := false } : Config).transportBound = false ∧
    ((Config.ofSize 41 1).transportBound = true ∧
      ¬ (∀ q < (Config.ofSize 41 1).w * (Config.ofSize 41 1).h, addrOf (Config.ofSize 41 1) q ≤ 0x27 ∨
        (0x40 ≤ addrOf (Config.ofSize 41 1) q ∧ addrOf (Config.ofSize 41 1) q ≤ 0x67))) ∧
    (g40x2.transportBound = true ∧ (1 ≤ g40x2.w ∧ 1 ≤ g40x2.h) ∧
      (g40x2.h ≤ g40x2.rowBase.length ∧ ∀ b ∈ g40x2.rowBase, b < 0x80) ∧
      (∀ q < g40x2.w * g40x2.h, addrOf g40x2 q ≤ 0x27 ∨ (0x40 ≤ addrOf g40x2 q ∧ addrOf g40x2 q ≤ 0x67)) ∧
      (∀ q < g40x2.w * g40x2.h, ∀ r < g40x2.w * g40x2.h, addrOf g40x2 q = addrOf g40x2 r → q = r)) :=
  ⟨rfl, ⟨rfl, fun h => absurd (h 40 (by decide)) (by decide)⟩, by decide, by decide, by decide, by decide,
    (addrsDistinct_iff g40x2).1 (by decide)⟩

theorem witness_ValidGeometryIsSmall : Admitted g40x2 ∧ g40x2.w * g40x2.h = 80 := by decide

theorem witness_CellAddressBytesAreExact : Admitted g40x2 ∧ 0 < g40x2.w * g40x2.h ∧ 79 < g40x2.w * g40x2.h := by
  decide

theorem witness_ConstructionGivesS0 : construct g20x4 = .ok (State.ofConfig g20x4) := rfl

/-- The earliest and the latest call that may fail. -/
theorem witness_FirstInitEndsAsStated :
    (0 < 9 ∧ (seqOf (step { State.reset with bus := { Bus.reset g16x2 with answers := [.fail] } })).map Seq.phase =
      some .desync) ∧ 8 < 9 := by decide

theorem witness_DeviceWordsLeaveTheSequencer : violated.bus.watch = .violation := rfl

/-- The hypothesis of `ClearWordBlanksTheDisplay`, `SetAddressWordSetsTheCounter`, `ConfigurationWordsSetTheirFields`. -/
theorem witness_device_word : State.reset.bus.watch ≠ .violation := by decide

/-- The two edges of the counter and the cells beside them; each also has the checker running. -/
theorem witness_DataWordStoresAndSteps :
    [0x27, 0x67, 0x00, 0x26, 0x40, 0x66].all (fun a =>
      (atAddr a).bus.watch != .violation && (atAddr a).bus.dev.increment && (atAddr a).bus.dev.twoLines &&
      (atAddr a).bus.dev.ac == a) = true := by decide

/-- The edges of each class of `ConfigurationWordsSetTheirFields`. -/
theorem witness_ConfigurationWords_classes :
    [0x20, 0x3F].all (fun w : DevWord => decide (0x20 ≤ w.toNat ∧ w.toNat < 0x40)) = true ∧
    [0x18, 0x1F].all (fun w : DevWord => decide (0x18 ≤ w.toNat ∧ w.toNat < 0x20)) = true ∧
    [0x08, 0x0F].all (fun w : DevWord => decide (0x08 ≤ w.toNat ∧ w.toNat < 0x10)) = true ∧
    [0x04, 0x07].all (fun w : DevWord => decide (0x04 ≤ w.toNat ∧ w.toNat < 0x08)) = true := by decide

/-- The other clauses of `DataWordStoresAndSteps`: one-line mode at 0x27, and stepping back from 0x01. -/
theorem witness_DataWord_modes :
    ({ Device.reset g16x2 with ac := 0x27 } : Device).twoLines = false ∧ (Device.reset g16x2).increment = true ∧
    ({ Device.reset g16x2 with ac := 0x01, increment := false } : Device).increment = false ∧
    (0x01 : Addr) ≠ 0x00 ∧ (0x27 : Addr) ≠ 0x7F ∧ (Device.reset g16x2).shiftOnWrite = false ∧
    ({ Device.reset g16x2 with shiftOnWrite := true } : Device).shiftOnWrite = true := by decide

/-- Home and shifts: the same states, and a left shift just past the start of a line. -/
theorem witness_CursorShiftsMoveCounterHomeAlsoDisplayShift :
    (atAddr 0x01).bus.watch ≠ .violation ∧ (atAddr 0x27).bus.dev.twoLines = true ∧
    (atAddr 0x01).bus.dev.ac ≠ 0x00 ∧ (atAddr 0x01).bus.dev.ac ≠ 0x40 ∧ (atAddr 0x41).bus.dev.ac ≠ 0x40 ∧
    (atAddr 0x67).bus.dev.ac = 0x67 ∧ (atAddr 0x66).bus.dev.ac ≠ 0x67 ∧ (atAddr 0x7E).bus.dev.ac ≠ 0x7F := by decide

theorem witness_SelectsAndByteChangeOnlyTheLine :
    (busy .clear [.selIr] [.ok]).bus.nextAnswer = .ok ∧ (busy .clear [.selIr] [.fail]).bus.nextAnswer = .fail := by
  decide

/-- A pulse that is due, one that fails, and one that is not due. -/
theorem witness_PulseLatchesOneWord :
    (presented.bus.nextAnswer = .ok ∧ presented.bus.line = { rs := .known .ir, bus := some 0x01 } ∧
      presented.bus.watch.onCall .pulse .ok ≠ .violation) ∧
    ((busy .clear [.pulse] [.fail]).bus.nextAnswer = .fail ∧
      (busy .clear [.pulse] [.fail]).bus.watch.onCall .pulse .fail ≠ .violation) ∧
    (busy .clear [.pulse] [.ok]).bus.watch.onCall .pulse .ok = .violation := by decide

theorem witness_WaitsAnswerOkAndTouchNothing :
    (busy .clear [.wait .long] []).Issues .clear (.wait .long) [] ∧
    (busy .clear [.wait .short, .selIr] []).Issues .clear (.wait .short) [.selIr] := by
  decide

theorem witness_IssueOkAdvancesTheList :
    (busy .clear [.tx 0x01, .pulse, .wait .long] [.ok]).Issues .clear (.tx 0x01) [.pulse, .wait .long] ∧
    (busy .clear [.tx 0x01, .pulse, .wait .long] [.ok]).bus.answerTo (.tx 0x01) = .ok := by
  decide

/-- One witness for each primitive as the head, that `IssueOkAdvancesTheList` completes. -/
theorem witness_IssueOk_every_primitive :
    [Prim.selIr, .selDr, .tx 0x01, .pulse, .wait .short, .wait .long].all (fun p =>
      (busy .init [p, .selIr] [.ok]).seq.pend == [p, .selIr] &&
      (busy .init [p, .selIr] [.ok]).bus.answerTo p == .ok) = true := by decide

theorem witness_LastIssueOkCommits :
    (busy .clear [.wait .long] []).Issues .clear (.wait .long) [] ∧
    (busy .clear [.wait .long] []).bus.answerTo (.wait .long) = .ok := by
  decide

theorem witness_FailedCallEntersDesync :
    (busy .clear [.pulse, .wait .long] [.fail]).Issues .clear .pulse [.wait .long] ∧
    (busy .clear [.pulse, .wait .long] [.fail]).bus.answerTo .pulse = .fail := by
  decide

theorem witness_BypassLeavesTheSequencer :
    ∀ op rest, ¬ (ready g16x2 0 (.known .ir)).Issues op .pulse rest := by
  intro op rest h
  exact absurd h.1 (by decide)

/-- The phase hypotheses of `InitStartsTheSequence`, `ClearStartsOneTransfer` and `EmptyWriteTextIsNoOp`. -/
theorem witness_request_phases :
    (ready g16x2 0 (.known .ir)).seq.phase = .ready ∧ (ready g16x2 0 (.known .ir)).seq.phase ≠ .busy ∧
    (desync g16x2).seq.phase = .desync ∧ (desync g16x2).seq.phase ≠ .busy := by decide

/-- `SetCursorStartsOneTransfer` and `SetCursorOutOfRangeRejected`: the last cell, and the first column and row outside. -/
theorem witness_SetCursor :
    Admitted (ready g16x2 0 (.known .ir)).cfg ∧ 15 < (ready g16x2 0 (.known .ir)).cfg.w ∧
    1 < (ready g16x2 0 (.known .ir)).cfg.h ∧ 16 ≥ (ready g16x2 0 (.known .ir)).cfg.w ∧
    2 ≥ (ready g16x2 0 (.known .ir)).cfg.h ∧ (ready g16x2 0 (.known .ir)).seq.phase = .ready := by decide

/-- `WriteTextStarts` and `TextOverflowRejectedWhole`: a text that ends at the last cell, and one character more. -/
theorem witness_WriteText :
    (ready g16x2 31 (.known .ir)).seq.phase = .ready ∧ (ready g16x2 31 (.known .ir)).seq.cur = some 31 ∧
    ([0x41] : List Byte) ≠ [] ∧ 31 + ([0x41] : List Byte).length ≤ g16x2.w * g16x2.h ∧
    31 + ([0x41, 0x42] : List Byte).length > g16x2.w * g16x2.h := by decide

theorem witness_DesyncAnswersOnlyInit :
    (desync g16x2).seq.phase = .desync ∧ Request.writeText [] ≠ .init ∧ (desync g16x2).seq.rs = .unknown := by decide

theorem witness_BusyHoldsRequests :
    State.reset.seq.phase = .busy ∧ ∃ t, step State.reset = .next t := ⟨rfl, _, rfl⟩

theorem witness_RequestsLeaveBusAndTracker :
    ∃ t, exec (Request.toInstr .clear) (ready g16x2 0 (.known .ir)) = .next t := ⟨_, rfl⟩

theorem witness_WriteTextPrimitiveCount : ([0x41] : List Byte) ≠ [] := by decide

theorem witness_TextBytesPassUnchanged :
    31 + ([0x41] : List Byte).length ≤ (filled g16x2 .blank).length ∧ 0 < ([0x41] : List Byte).length := by decide

/-- The cells just before and just after a text of two characters at 5. -/
theorem witness_WriteTextLeavesOtherCells_buffer : 4 < 5 ∧ 5 + ([0x41, 0x42] : List Byte).length ≤ 7 := by decide

theorem witness_OperationsLatchOnlyKnownWords :
    (ready g16x2 15 (.known .ir)).seq.phase ≠ .busy ∧
    ∃ t, exec (Request.toInstr (.writeText [0x58])) (ready g16x2 15 (.known .ir)) = .next t ∧ t.seq.phase = .busy ∧
      (some 0x0C0) ∈ latchStream { rs := .known .ir, bus := none } t.seq.pend :=
  ⟨by decide, _, rfl, rfl, by decide⟩

/-- One state after the SetCursor for each of the three outcomes: in a row, at a row's end, at the last cell. -/
theorem witness_SetCursorThenOneCharacter :
    [(0, 0), (15, 0), (15, 1)].all (fun x =>
      decide (x.1 < g16x2.w) && decide (x.2 < g16x2.h) &&
      postOf (exec (.setCursor x.1 x.2) (ready g16x2 0 (.known .ir))) == some (.known .ir, x.2 * 16 + x.1) &&
      (ready g16x2 (x.2 * 16 + x.1) (.known .ir)).seq.cur == some (x.2 * 16 + x.1)) = true := by decide

theorem witness_ResetMeetsTheInvariants : Admitted Config.standard ∧ Admitted shifted := by decide

/-- A configuration with either kind of first row, and a step. -/
theorem witness_ClearWordBlanksTheDisplay :
    Admitted g16x2 ∧ Admitted shifted ∧ ∃ t, step State.reset = .next t := ⟨by decide, by decide, _, rfl⟩

/-! #### Invariants hold of a Busy, a Ready and a Desync state that can step -/

theorem ready_coherent : (ready g16x2 0 (.known .ir)).seq.Coherent g16x2 where
  size := rfl
  cursorRange q h := by cases h; decide
  ready _ := ⟨⟨0, rfl, by decide⟩, by decide, rfl, rfl, by decide⟩
  busy h := by cases h
  desync h := by cases h

theorem desync_coherent : (desync g16x2).seq.Coherent g16x2 where
  size := rfl
  cursorRange q h := by cases h
  ready h := by cases h
  busy h := by cases h
  desync _ := ⟨rfl, rfl, by decide, rfl, rfl⟩

theorem busy_coherent : (busy .clear [.tx 0x01, .pulse, .wait .long] [.ok, .ok]).seq.Coherent g16x2 where
  size := rfl
  cursorRange q h := by cases h; decide
  ready h := by cases h
  busy _ := ⟨⟨.clear, rfl⟩, by decide, by decide, by decide, rfl, by decide⟩
  desync h := by cases h

/-- Witness of `StepKeepsCoherence`, `CoherentStateNeverStops` and `EveryOperationEnds`, in each phase. -/
theorem witness_coherent_states :
    ((busy .clear [.tx 0x01, .pulse, .wait .long] [.ok, .ok]).seq.Coherent g16x2 ∧
      (busy .clear [.tx 0x01, .pulse, .wait .long] [.ok, .ok]).seq.phase = .busy ∧
      ∃ t, step (busy .clear [.tx 0x01, .pulse, .wait .long] [.ok, .ok]) = .next t) ∧
    ((ready g16x2 0 (.known .ir)).seq.Coherent g16x2 ∧
      ∃ t, step { ready g16x2 0 (.known .ir) with port := [.writeText [0x41]] } = .next t) ∧
    ((desync g16x2).seq.Coherent g16x2 ∧ ∃ t, step { desync g16x2 with port := [.init] } = .next t) :=
  ⟨⟨busy_coherent, rfl, _, rfl⟩, ⟨ready_coherent, _, rfl⟩, desync_coherent, _, rfl⟩

theorem witness_StepKeepsTheContract :
    ((busy .clear [.tx 0x01, .pulse, .wait .long] [.ok]).seq.ContractMet ∧
      ∃ t, step (busy .clear [.tx 0x01, .pulse, .wait .long] [.ok]) = .next t) ∧
    (ready g16x2 0 (.known .ir)).seq.ContractMet ∧ (desync g16x2).seq.ContractMet :=
  ⟨⟨rfl, _, rfl⟩, rfl, rfl⟩

theorem ready_mirrors : Mirrors g16x2 (.known .ir) 0 (filled g16x2 .blank) (ready g16x2 0 (.known .ir)).bus where
  contract := rfl
  line := rfl
  twoLines := rfl
  increment := rfl
  displayOn := rfl
  shiftOnWrite := rfl
  notShifted := rfl
  onCell _ := by decide
  atEnd h := absurd h (by decide)
  shown := by decide

theorem ready_mirrorKept : (ready g16x2 0 (.known .ir)).MirrorKept :=
  ⟨rfl, by decide, fun q h => by cases h; exact ready_mirrors⟩

theorem shifted_coherent : (ready shifted 0 (.known .ir)).seq.Coherent shifted where
  size := rfl
  cursorRange q h := by cases h; decide
  ready _ := ⟨⟨0, rfl, by decide⟩, by decide, rfl, rfl, by decide⟩
  busy h := by cases h
  desync h := by cases h

theorem shifted_mirrors : Mirrors shifted (.known .ir) 0 (filled shifted .blank) (ready shifted 0 (.known .ir)).bus where
  contract := rfl
  line := rfl
  twoLines := rfl
  increment := rfl
  displayOn := rfl
  shiftOnWrite := rfl
  notShifted := rfl
  onCell _ := by decide
  atEnd h := absurd h (by decide)
  shown := by decide

theorem shifted_mirrorKept : (ready shifted 0 (.known .ir)).MirrorKept :=
  ⟨rfl, by decide, fun q h => by cases h; exact shifted_mirrors⟩

/-- Witness of `StepKeepsTheMirror`: a Ready state with a waiting request, for a first row at 0 and for one at 0x10. -/
theorem witness_StepKeepsTheMirror :
    (Admitted g16x2 ∧ (ready g16x2 0 (.known .ir)).seq.Coherent g16x2 ∧ (ready g16x2 0 (.known .ir)).MirrorKept ∧
      ∃ t, step { ready g16x2 0 (.known .ir) with port := [.setCursor 3 1] } = .next t) ∧
    (Admitted shifted ∧ (ready shifted 0 (.known .ir)).seq.Coherent shifted ∧ (ready shifted 0 (.known .ir)).MirrorKept ∧
      ∃ t, step { ready shifted 0 (.known .ir) with port := [.clear] } = .next t) :=
  ⟨⟨by decide, ready_coherent, ready_mirrorKept, _, rfl⟩, by decide, shifted_coherent, shifted_mirrorKept, _, rfl⟩

/-- Witness of the mirror clauses of `WriteTextLeavesOtherCells` and `OperationsLatchOnlyKnownWords`. -/
theorem witness_WriteTextLeavesOtherCells :
    Admitted shifted ∧ (ready shifted 0 (.known .ir)).seq.Coherent shifted ∧ (ready shifted 0 (.known .ir)).MirrorKept ∧
    (ready shifted 0 (.known .ir)).seq.phase = .ready ∧ (ready shifted 0 (.known .ir)).seq.cur = some 0 ∧
    ∃ t, exec (Request.toInstr (.writeText [0x41])) (ready shifted 0 (.known .ir)) = .next t ∧ t.seq.phase = .busy :=
  ⟨by decide, shifted_coherent, shifted_mirrorKept, rfl, rfl, _, rfl, rfl⟩

theorem witness_InitMirrorsAllButAShiftedCounter :
    Admitted shifted ∧ addrOf shifted 0 ≠ 0 ∧ (Bus.reset shifted).dev.clearAddr = addrOperand shifted 0 ∧
    (Bus.reset g16x2).dev.clearAddr = 0 ∧
    (Bus.reset g16x2).watch = .running .unknown .idle ∧ (Bus.reset g16x2).line.rs = .unknown ∧
    (ready g16x2 0 (.known .dr)).bus.watch = .running (.known .dr) .idle ∧
    (ready g16x2 0 (.known .dr)).bus.line.rs = .known .dr := by
  decide

theorem witness_StepKeepsOneResponsePerRequest :
    State.reset.seq.Answered ∧ (ready g16x2 0 (.known .ir)).seq.Answered ∧ ∃ t, step State.reset = .next t :=
  ⟨by simp only [Seq.Answered]; decide, by simp only [Seq.Answered]; decide, _, rfl⟩

/-- The hypothesis of the statements about any step: `TraceIsAppendOnlyAndNeverRead`. -/
theorem witness_any_step : ∃ t, step State.reset = .next t := ⟨_, rfl⟩

/-- An operation of which one primitive has been issued. -/
def underway : State :=
  let s := busy .clear [.tx 0x01, .pulse, .wait .long] [.ok]
  { s with seq := { s.seq with trace := s.seq.trace ++ [.req .clear, .call .selIr .ok] } }

def watchesOf : Host.Outcome Bench Fault Refusal → List Checker
  | .next b => b.instances.map fun u => u.bus.watch
  | _ => []

/-- spec/95 S7: while one instance issues the calls of its first Init, another in S0, Busy but with no call issued, keeps its
controller; a call between the primitives of another leaves nothing known of either. -/
theorem test_bench :
    watchesOf (({ instances := [{ State.ofConfig g20x4 with bus := { Bus.reset g20x4 with answers := [.ok] } },
      State.reset, ready g16x2 0 (.known .ir)] } : Bench).step 0) =
        [.running (.known .ir) .selected, .running .unknown .idle, .running (.known .ir) .idle] ∧
    watchesOf (({ instances := [busy .clear [.tx 0x01] [.ok], ready g16x2 0 (.known .ir), underway] } : Bench).step 0) =
        [.violation, .running (.known .ir) .idle, .violation] := by decide

/-- One instance moves beside one in Ready, one in S0 and one in Desync. -/
theorem witness_SequentialInstancesAreIndependent :
    let b : Bench := { instances := [underway, ready g16x2 0 (.known .ir), State.reset, desync g16x2] }
    b.instances[0]? = some underway ∧ underway.calls = true ∧ (∃ t, step underway = .next t) ∧
    (∀ (j : Nat) (u : State), j ≠ 0 → b.instances[j]? = some u → u.midway = false) ∧
    (ready g16x2 0 (.known .ir)).MirrorKept :=
  ⟨rfl, rfl, ⟨_, rfl⟩, fun j u hj h => match j, hj, h with
    | 1, _, h => by cases h; rfl
    | 2, _, h => by cases h; rfl
    | 3, _, h => by cases h; rfl, ready_mirrorKept⟩

/-- Two instances whose primitives are interleaved. -/
theorem witness_SequentialInstances_interleaved :
    let b : Bench := { instances := [busy .clear [.tx 0x01] [.ok], underway] }
    b.instances[0]? = some (busy .clear [.tx 0x01] [.ok]) ∧ b.instances[1]? = some underway ∧
    (busy .clear [.tx 0x01] [.ok]).calls = true ∧ underway.midway = true ∧
    ∃ t, step (busy .clear [.tx 0x01] [.ok]) = .next t :=
  ⟨rfl, rfl, rfl, rfl, _, rfl⟩

/-- A Ready state after a bypass that selected another register, and a Desync state. -/
theorem witness_InitRestoresTheMirror :
    (let s := (ready g16x2 5 (.known .ir)).bypass .selDr
     Admitted s.cfg ∧ s.bus.dev.clearAddr = addrOperand s.cfg 0 ∧ s.bus.inbox = [] ∧ s.seq.phase ≠ .busy) ∧
    (desync g16x2).seq.phase ≠ .busy ∧ (desync g16x2).bus.inbox = [] := by
  decide

/-- The other clauses: a state of which nothing is known of the display, and a step from it, one with an Init waiting. -/
theorem witness_InitRestoresTheMirror_only :
    let s := (ready g16x2 0 (.known .ir)).powerCycle
    s.seq.Coherent s.cfg ∧ s.bus.Unspecified ∧ (∃ t, step { s with port := [.setCursor 3 1] } = .next t) ∧
    ∃ t, step { s with port := [.init] } = .next t :=
  ⟨ready_coherent, ⟨rfl, fun _ => rfl⟩, ⟨_, rfl⟩, _, rfl⟩

theorem witness_LeastDurations : ValidConfig g16x2 ∧ delayReaches .long .short = true := ⟨⟨by decide, by decide⟩, rfl⟩

/-- R116, U7: power loss leaves S and makes the display unknown, and a word before the next Init does not make it known. -/
theorem test_power_cycle :
    (ready g16x2 5 (.known .dr)).powerCycle.seq = (ready g16x2 5 (.known .dr)).seq ∧
    (ready g16x2 5 (.known .dr)).powerCycle.bus.dev.ddram.read 0x05 = .unknown ∧
    (busOf (exec .clearDisplay (ready g16x2 5 (.known .dr)).powerCycle)).map (fun b => b.dev.ddram.read 0x05) =
      some .unknown := by decide

/-- R116: a bypass call does not reach S, even one the sequencer was about to make. -/
theorem test_bypass :
    ((busy .clear [.selDr] [.ok]).bypass .selDr).seq = (busy .clear [.selDr] [.ok]).seq ∧
    ((busy .clear [.selDr] [.ok]).bypass .selDr).bus.line.rs = .known .dr := by decide

/-- Two states that differ in the line, the checker and the controller only. -/
theorem witness_SequencerIsBlindToTheDevice :
    ∃ s u : State, s.cfg = u.cfg ∧ s.seq = u.seq ∧ s.port = u.port ∧ s.bus.answers = u.bus.answers ∧
      s.bus.draws = u.bus.draws ∧ s.bus ≠ u.bus ∧ ∃ t, exec .pulse s = .next t :=
  ⟨busy .clear [.pulse] [.ok],
    { busy .clear [.pulse] [.ok] with bus := { Bus.reset g16x2 with answers := [.ok], watch := .violation } },
    rfl, rfl, rfl, rfl, rfl, by decide, _, rfl⟩

theorem witness_TrackerChangesOnlyWhenBusyEnds :
    ∃ t, step (busy .clear [.tx 0x01] [.fail]) = .next t ∧
      t.seq.rs ≠ (busy .clear [.tx 0x01] [.fail]).seq.rs ∧ t.seq.cur ≠ (busy .clear [.tx 0x01] [.fail]).seq.cur ∧
      t.seq.buf ≠ (busy .clear [.tx 0x01] [.fail]).seq.buf :=
  ⟨_, rfl, by decide, by decide, by decide⟩

theorem witness_DesyncEnteredByFailureLeftByInit :
    (∃ t, step (busy .clear [.tx 0x01] [.fail]) = .next t ∧ t.seq.phase = .desync) ∧
    (∃ t, step { desync g16x2 with port := [.init] } = .next t ∧ t.seq.phase ≠ .desync) :=
  ⟨⟨_, rfl, rfl⟩, _, rfl, by decide⟩

theorem witness_StepKeepsDisplayMemoryCanonical :
    (atAddr 0x27).bus.dev.ddram.wf = true ∧ ∃ t, step ((atAddr 0x27).placeWord 0b101000001) = .next t :=
  ⟨rfl, _, rfl⟩

theorem witness_CheckerRejectsTheNamedOrders :
    delayOf .ir 0x01 = .long ∧ delayOf .ir 0x03 = .long ∧ ∀ d, Prim.pulse ≠ .wait d :=
  ⟨by decide, by decide, fun _ h => by cases h⟩

/-- Each clause: an unknown cursor, the last cell, the end, inside and outside the geometry, a step within Busy
and the step that enters it. -/
theorem witness_ObservationsAreAsStated :
    State.reset.seq.cur = none ∧ ((ready g16x2 31 (.known .dr)).seq.cur = some 31 ∧ 31 < g16x2.w * g16x2.h) ∧
    (ready g16x2 32 (.known .dr)).seq.cur = some (g16x2.w * g16x2.h) ∧ (15 < g16x2.w ∧ 1 < g16x2.h) ∧
    ¬ (16 < g16x2.w ∧ 0 < g16x2.h) ∧
    (∃ t, step (busy .clear [.tx 0x01, .pulse] [.ok]) = .next t ∧
      (busy .clear [.tx 0x01, .pulse] [.ok]).seq.phase = .busy ∧ t.seq.phase = .busy) ∧
    ∃ t, exec (Request.toInstr .clear) (ready g16x2 31 (.known .dr)) = .next t ∧ t.seq.phase = .busy :=
  ⟨by decide, by decide, by decide, by decide, by decide, ⟨_, rfl, rfl, rfl⟩, _, rfl, rfl⟩

end Sys2Proof.Tests
end

section
/-! SUPPORT. What an accepted word or record decodes to, and what the fetch finds in each place it looks (R54, R55, R77). -/

namespace Sys2Proof

theorem decode_dev_eq_ok {w : DevWord} {i : Instr} :
    decode (.dev w) = .ok i ↔ ∃ d, decodeDevice w = some d ∧ d.toInstr = i := by
  cases hd : decodeDevice w with
  | none => simp [decode, hd]
  | some d => simp [decode, hd]

@[simp] theorem decode_req (r : ReqRecord) : decode (.req r) = .ok (decodeRequest r).toInstr := rfl

theorem decode_prim_of_decodePrim {w : CallWord} {p : Prim} (h : decodePrim w = .ok p) :
    decode (.prim w) = .ok p.toInstr := by
  simp [decode, h, Except.map]

end Sys2Proof

namespace Sys2Proof.Machine

variable {s : State}

theorem State.fetch_of_inbox_cons {w : DevWord} {ws : List DevWord} (h : s.bus.inbox = w :: ws) :
    s.fetch = s.fetchDevice w ws := by
  simp only [State.fetch, h]

theorem State.fetch_of_busy (hi : s.bus.inbox = []) (hp : s.seq.phase = .busy) : s.fetch = s.fetchPrim := by
  simp only [State.fetch, hi, hp]

theorem State.fetch_of_not_busy (hi : s.bus.inbox = []) (hp : s.seq.phase ≠ .busy) : s.fetch = s.fetchRequest := by
  cases hph : s.seq.phase with
  | busy => exact absurd hph hp
  | ready => simp only [State.fetch, hi, hph]
  | desync => simp only [State.fetch, hi, hph]

theorem State.fetchDevice_of_listed {w : DevWord} {d : DevInstr} (ws : List DevWord) (h : decodeDevice w = some d) :
    s.fetchDevice w ws = .runs d.toInstr { s with bus := { s.bus with inbox := ws } } := by
  simp only [State.fetchDevice, h]

theorem State.fetchPrim_of_issues {t : OpTag} {p : Prim} {rest : List Prim} (h : s.Issues t p rest) :
    s.fetchPrim = .runs p.toInstr s := by
  obtain ⟨-, hop, hpend⟩ := h
  simp only [State.fetchPrim, hop, hpend]

theorem State.fetchRequest_of_port_cons {q : Request} {qs : List Request} (h : s.port = q :: qs) :
    s.fetchRequest = .runs q.toInstr { s with port := qs } := by
  simp only [State.fetchRequest, h]

theorem State.fetchRequest_of_port_nil (h : s.port = []) : s.fetchRequest = .goesOn s := by
  simp only [State.fetchRequest, h]

theorem step_of_fetch_runs {i : Instr} {s1 : State} (h : s.fetch = .runs i s1) : step s = exec i s1 := by
  simp only [step, h]

theorem step_of_fetch_goesOn {s1 : State} (h : s.fetch = .goesOn s1) : step s = .next s1 := by
  simp only [step, h]

/-! ### O7, by the place the fetch looks first -/

theorem step_runs_inbox_head {w : DevWord} {ws : List DevWord} {i : Instr} (hi : s.bus.inbox = w :: ws)
    (hdec : decode (.dev w) = .ok i) : step s = exec i { s with bus := { s.bus with inbox := ws } } := by
  obtain ⟨d, hd, rfl⟩ := decode_dev_eq_ok.1 hdec
  exact step_of_fetch_runs ((State.fetch_of_inbox_cons hi).trans (State.fetchDevice_of_listed ws hd))

theorem step_runs_pending_head {t : OpTag} {p : Prim} {rest : List Prim} (hi : s.bus.inbox = [])
    (h : s.Issues t p rest) : step s = exec p.toInstr s :=
  step_of_fetch_runs ((State.fetch_of_busy hi h.1).trans (State.fetchPrim_of_issues h))

theorem step_runs_port_head {q : Request} {qs : List Request} (hi : s.bus.inbox = []) (hp : s.seq.phase ≠ .busy)
    (hq : s.port = q :: qs) : step s = exec q.toInstr { s with port := qs } :=
  step_of_fetch_runs ((State.fetch_of_not_busy hi hp).trans (State.fetchRequest_of_port_cons hq))

theorem step_idle (hi : s.bus.inbox = []) (hp : s.seq.phase ≠ .busy) (hq : s.port = []) : step s = .next s :=
  step_of_fetch_goesOn ((State.fetch_of_not_busy hi hp).trans (State.fetchRequest_of_port_nil hq))

end Sys2Proof.Machine
end

section
open Sys2Proof Sys2Proof.Machine

/-- Settles O7, by the place the next instruction waits in: the controller's inbox, the pending list, the port, or none. -/
theorem stepRunsDecodedInstruction : Obligations.StepRunsDecodedInstruction := by
  refine ⟨fun s w ws i => step_runs_inbox_head, ?pending, ?port, fun s => step_idle⟩
  case pending =>
    intro s t p rest w i hi hissues hw hdec
    obtain rfl : p.toInstr = i := Except.ok.inj ((decode_prim_of_decodePrim hw).symm.trans hdec)
    exact step_runs_pending_head hi hissues
  case port =>
    intro s q qs r i hi hp hq hr hdec
    subst hr
    obtain rfl : (decodeRequest r).toInstr = i := Except.ok.inj ((decode_req r).symm.trans hdec)
    exact step_runs_port_head hi hp hq
end

section
/-! SUPPORT. A step seen from the controller and from the sequencer: what it does to the controller, and which updates keep the
facts of R31. -/

namespace Sys2Proof.Machine

variable {s t : State} {q : Request} {p : Prim} {c : Config} {S : Seq}

@[simp] theorem State.opened_dev (q : Request) (s : State) : (s.opened q).bus.dev = s.bus.dev := by
  rw [State.opened_bus]

theorem State.opened_of_ne_init (hq : q ≠ .init) (s : State) : s.opened q = s := by
  cases q with
  | init => exact absurd rfl hq
  | _ => rfl

theorem exec_request_dev (h : exec q.toInstr s = .next t) : t.bus.dev = s.bus.dev := by
  rcases exec_request_cases h with ⟨-, rfl⟩ | ⟨-, -, r, -, rfl⟩ | ⟨-, -, ps, x, -, rfl⟩ <;> simp

/-- A change of the controller does not ask which words wait. -/
theorem Bus.change_dev_of_inbox (b : Bus) (ws : List DevWord) (f : Nat → Device → Device) :
    (({ b with inbox := ws } : Bus).change f).dev = (b.change f).dev := by
  unfold Bus.change
  cases b.watch <;> rfl

/-- What a step does to the controller: nothing, a word from outside, or a call. -/
theorem step_dev_cases (h : step s = .next t) :
    t.bus.dev = s.bus.dev ∨ (∃ d, t.bus.dev = (s.bus.obey d).dev) ∨
    (∃ w, t.bus.dev = (s.bus.change fun n d => d.unlisted w n).dev) ∨ ∃ p a, t.bus.dev = s.bus.devAfter p a := by
  rcases step_cases h with ⟨w, ws, -, ⟨d, -, rfl⟩ | ⟨-, rfl⟩⟩ | ⟨op, p, rest, -, -, -, -, rfl⟩ | ⟨q, qs, -, -, -, he⟩ |
    ⟨-, -, -, rfl⟩
  · exact .inr (.inl ⟨d, Bus.change_dev_of_inbox _ ws _⟩)
  · exact .inr (.inr (.inl ⟨w, Bus.change_dev_of_inbox _ ws _⟩))
  · exact .inr (.inr (.inr ⟨p, _, rfl⟩))
  · exact .inl (exec_request_dev (s := { s with port := qs }) he)
  · exact .inl rfl

theorem step_keeps_ddram_wf (hs : s.bus.dev.ddram.wf = true) (h : step s = .next t) : t.bus.dev.ddram.wf = true := by
  rcases step_dev_cases h with he | ⟨d, he⟩ | ⟨w, he⟩ | ⟨p, a, he⟩ <;> rw [he]
  · exact hs
  · exact Bus.change_wf _ _ hs (effectOf_wf d)
  · exact Bus.change_wf _ _ hs fun n d => Device.unlisted_wf d w n
  · exact Bus.devAfter_wf _ _ _ hs

theorem step_clearAddr (h : step s = .next t) : t.bus.dev.clearAddr = s.bus.dev.clearAddr := by
  rcases step_dev_cases h with he | ⟨d, he⟩ | ⟨w, he⟩ | ⟨p, a, he⟩ <;> rw [he]
  · exact Bus.change_clearAddr _ _ (effectOf_clearAddr d)
  · exact Bus.change_clearAddr _ _ fun n d => Device.unlisted_clearAddr d w n
  · exact Bus.devAfter_clearAddr _ _ _

theorem exec_request_cfg (h : exec q.toInstr s = .next t) : t.cfg = s.cfg := by
  rcases exec_request_cases h with ⟨-, rfl⟩ | ⟨-, -, r, -, rfl⟩ | ⟨-, -, ps, x, -, rfl⟩ <;> simp

/-! ### Primitive lists and buffers that an operation starts with -/

theorem xferInstr_ne_nil (sh : RsShadow) (d : DevInstr) : (xferInstr sh d).1 ≠ [] := xfer_ne_nil _ _ _

@[simp] theorem xferInstr_shadow (sh : RsShadow) (d : DevInstr) : (xferInstr sh d).2 = .known (enc d).reg := rfl

theorem initSeq_ne_nil (sh : RsShadow) : initSeq sh ≠ [] := by
  simp [initSeq, xferInstr_ne_nil]

theorem writeSeq_ne_nil (c : Config) (sh : RsShadow) (q : Nat) {text : List Byte} (h : text ≠ []) :
    (writeSeq c sh q text).1 ≠ [] := by
  cases text with
  | nil => contradiction
  | cons b bs => simp [writeSeq, xferInstr_ne_nil]

theorem rewrap_shadow_known (c : Config) {sh : RsShadow} (q : Nat) (h : sh ≠ .unknown) : (rewrap c sh q).2 ≠ .unknown := by
  unfold rewrap
  split
  · simp
  · exact h

theorem writeSeq_shadow_known (c : Config) {sh : RsShadow} (q : Nat) (text : List Byte) (h : sh ≠ .unknown) :
    (writeSeq c sh q text).2 ≠ .unknown := by
  induction text generalizing sh q with
  | nil => exact h
  | cons b bs ih => exact ih _ (rewrap_shadow_known c q (by simp))

@[simp] theorem filled_length (c : Config) (x : Cell) : (filled c x).length = cellCount c := by simp [filled]

theorem eq_of_mem_filled {x y : Cell} (h : y ∈ filled c x) : y = x := List.eq_of_mem_replicate h

@[simp] theorem bufWrite_length (q : Nat) (x : Cell) (buf : List Cell) : (bufWrite q x buf).length = buf.length := by
  simp [bufWrite]

@[simp] theorem bufWriteText_length (q : Nat) (text : List Byte) (buf : List Cell) :
    (bufWriteText q text buf).length = buf.length := by
  induction text generalizing q buf with
  | nil => rfl
  | cons b bs ih => rw [bufWriteText, ih, bufWrite_length]

/-- A text writes characters only, so it makes no cell unknown. -/
theorem bufWriteText_cells_known (q : Nat) (text : List Byte) {buf : List Cell} (h : ∀ x ∈ buf, x ≠ .unknown) :
    ∀ x ∈ bufWriteText q text buf, x ≠ .unknown := by
  induction text generalizing q buf with
  | nil => exact h
  | cons b bs ih =>
    refine ih (q + 1) fun x hx => ?_
    rcases List.mem_or_eq_of_mem_set hx with hm | rfl
    · exact h x hm
    · simp

/-! ### Which updates keep the facts of R31 -/

theorem Seq.Coherent.record (h : S.Coherent c) (e : Event) : (S.record e).Coherent c where
  size := h.size
  cursorRange := h.cursorRange
  ready hp := { h.ready hp with }
  busy hp := { h.busy hp with }
  desync hp := { h.desync hp with }

theorem Seq.Coherent.respond (h : S.Coherent c) (r : Response) : (S.respond r).Coherent c where
  size := h.size
  cursorRange := h.cursorRange
  ready hp := { h.ready hp with }
  busy hp := { h.busy hp with }
  desync hp := { h.desync hp with }

/-- An operation starts coherent if it has something to issue and a post that can become a Ready state. -/
theorem Seq.Coherent.start (h : S.Coherent c) {op : OpTag} {ps : List Prim} {x : Post} (hps : ps ≠ [])
    (hrs : x.rs ≠ .unknown) (hcur : x.cur ≤ cellCount c) (hsize : x.buf.length = cellCount c)
    (hknown : ∀ y ∈ x.buf, y ≠ .unknown) : (S.start op ps x).Coherent c where
  size := h.size
  cursorRange := h.cursorRange
  ready hp := by cases hp
  busy _ := ⟨⟨op, rfl⟩, hps, hrs, hcur, hsize, hknown⟩
  desync hp := by cases hp

theorem Seq.Coherent.commit (h : S.Coherent c) (hb : S.phase = .busy) : S.commit.Coherent c :=
  have ⟨_, _, hrs, hcur, hsize, hknown⟩ := h.busy hb
  { size := hsize
    cursorRange := fun q hq => by cases hq; exact hcur
    ready := fun _ => ⟨⟨_, rfl, hcur⟩, hrs, rfl, rfl, hknown⟩
    busy := fun hp => by cases hp
    desync := fun hp => by cases hp }

theorem Seq.enterDesync_coherent (S : Seq) (c : Config) : (S.enterDesync c).Coherent c where
  size := filled_length c _
  cursorRange q hq := by cases hq
  ready hp := by cases hp
  busy hp := by cases hp
  desync _ := ⟨rfl, rfl, fun _ => eq_of_mem_filled, rfl, rfl⟩

theorem Seq.Coherent.issue (h : S.Coherent c) (hb : S.phase = .busy) (op : OpTag) (p : Prim) (rest : List Prim)
    (a : Answer) : (S.issue c op p rest a).Coherent c := by
  have hrec := h.record (.call p a)
  cases a with
  | fail => exact (Seq.enterDesync_coherent _ c).respond _
  | ok =>
    cases rest with
    | nil => exact (hrec.commit hb).respond _
    | cons p' ps =>
      exact
        { size := h.size
          cursorRange := h.cursorRange
          ready := fun hp => by cases hb.symm.trans hp
          busy := fun _ => { h.busy hb with pending := List.cons_ne_nil p' ps }
          desync := fun hp => by cases hb.symm.trans hp }

/-- What a request starts from a coherent state is fit to become a Ready state. -/
theorem Seq.Coherent.started (h : s.seq.Coherent s.cfg) {ps : List Prim} {x : Post} (hst : Starts s q ps x) :
    (s.seq.start q.tag ps x).Coherent s.cfg := by
  have hblank : ∀ y ∈ filled s.cfg .blank, y ≠ Cell.unknown := fun y hy => by simp [eq_of_mem_filled hy]
  cases q with
  | init =>
    obtain ⟨rfl, rfl⟩ := hst
    exact h.start (initSeq_ne_nil _) (by simp [initPost]) (Nat.zero_le _) (filled_length _ _) hblank
  | clear =>
    obtain ⟨-, rfl, rfl⟩ := hst
    exact h.start (xferInstr_ne_nil _ _) (by simp [clearPost]) (Nat.zero_le _) (filled_length _ _) hblank
  | setCursor col row =>
    obtain ⟨hp, hcol, hrow, rfl, rfl⟩ := hst
    exact h.start (xferInstr_ne_nil _ _) (by simp [cursorPost]) (position_lt hcol hrow).le h.size (h.ready hp).cellsKnown
  | writeText text =>
    obtain ⟨hp, hne, p, -, hle, rfl, rfl⟩ := hst
    exact h.start (writeSeq_ne_nil _ _ _ hne) (writeSeq_shadow_known _ _ _ (h.ready hp).shadow) hle
      ((bufWriteText_length _ _ _).trans h.size) (bufWriteText_cells_known _ _ (h.ready hp).cellsKnown)

/-- What a request starts does not ask for the trace. -/
theorem Starts.record {ps : List Prim} {x : Post} (h : Starts s q ps x) (e : Event) : Starts (s.record e) q ps x := by
  cases q <;> exact h

theorem exec_request_keeps_coherence (hs : s.seq.Coherent s.cfg) (h : exec q.toInstr s = .next t) :
    t.seq.Coherent t.cfg := by
  rcases exec_request_cases h with ⟨-, rfl⟩ | ⟨-, -, r, -, rfl⟩ | ⟨-, -, ps, x, hst, rfl⟩
  · exact hs
  · exact (hs.record _).respond _
  · rw [State.opened_cfg, State.opened_seq]
    exact Seq.Coherent.started (s := s.record (.req q)) (hs.record _) (hst.record _)

theorem step_keeps_coherence (hs : s.seq.Coherent s.cfg) (h : step s = .next t) : t.seq.Coherent t.cfg := by
  rcases step_cases h with ⟨w, ws, -, ⟨d, -, rfl⟩ | ⟨-, rfl⟩⟩ | ⟨op, p, rest, -, hp, -, -, rfl⟩ | ⟨q, qs, -, -, -, he⟩ |
    ⟨-, -, -, rfl⟩
  · exact hs
  · exact hs
  · exact hs.issue hp op p rest _
  · exact exec_request_keeps_coherence (s := { s with port := qs }) hs he
  · exact hs

end Sys2Proof.Machine
end

section
open Sys2Proof Sys2Proof.Machine

/-- Settles O45, by the agent that moves: only an issue step and a started request change what R31 speaks of. -/
theorem stepKeepsCoherence : Obligations.StepKeepsCoherence :=
  fun _ _ hs h => step_keeps_coherence hs h

/-- Settles O58, by what a step does to the controller. -/
theorem stepKeepsDisplayMemoryCanonical : Obligations.StepKeepsDisplayMemoryCanonical :=
  fun _ _ hs h => step_keeps_ddram_wf hs h
end

section
/-! SUPPORT. Whole sequences replayed: an Init, and the controller that follows a text cell by cell (R34, R83, R88). -/

namespace Sys2Proof

open Sys2Proof.Machine

/-- The decoder gives back what the encoder was given. -/
theorem decodeDevice_encodeDevice (d : DevInstr) : decodeDevice (encodeDevice d) = some d := by
  cases d with
  | displayOn c b => revert c b; decide
  | setDdramAddress a => revert a; decide
  | data b => revert b; decide
  | _ => decide

end Sys2Proof

namespace Sys2Proof.Machine

variable {s t : State} {q : Request} {c : Config} {rs rs' : RsShadow} {cur : Nat} {buf : List Cell} {b b' : Bus}

theorem Bus.replay_append (b : Bus) (ps qs : List Prim) : b.replay (ps ++ qs) = (b.replay ps).replay qs :=
  List.foldl_append

theorem Bus.storesAt_append (b : Bus) (ps qs : List Prim) :
    b.storesAt (ps ++ qs) = b.storesAt ps ++ (b.replay ps).storesAt qs := by
  induction ps generalizing b with
  | nil => rfl
  | cons p ps ih => simp [Bus.storesAt, ih]

/-- The transfer of an encoder input, from the line it expects. -/
theorem Bus.replay_xferInstr (d : DevInstr) (hl : b.line.rs = rs) (hw : b.watch = .running rs .idle) :
    (b.replay (xferInstr rs d).1).watch = .running (.known (enc d).reg) .idle ∧
    (b.replay (xferInstr rs d).1).line.rs = .known (enc d).reg ∧
    (∃ n, (b.replay (xferInstr rs d).1).dev = effectOf d n b.dev) ∧
    b.storesAt (xferInstr rs d).1 = if (enc d).reg = .dr then [b.dev.ac] else [] := by
  obtain ⟨b', hb', hw', hl', hdev, hst⟩ :=
    Bus.replay_xfer b rs (enc d).reg (enc d).byte d [] hl hw (decodeDevice_encodeDevice d)
  simp only [List.append_nil, Bus.replay_nil, Bus.storesAt_nil] at hb' hst
  rw [xferInstr, hb', hst]
  exact ⟨hw', hl', hdev, rfl⟩

/-! ### Init -/

/-- What the four words of Init make of a controller (R83). -/
def Device.initialised (d : Device) : Device :=
  (((d.setFunction true true false).setDisplay true false false).setEntryMode true false).clear

theorem Bus.replay_initSeq (hl : b.line.rs = rs) (hw : b.watch = .running rs .idle) :
    (b.replay (initSeq rs)).watch = .running (.known .ir) .idle ∧ (b.replay (initSeq rs)).line.rs = .known .ir ∧
    (b.replay (initSeq rs)).dev = b.dev.initialised := by
  simp only [initSeq, Bus.replay_append]
  obtain ⟨w1, l1, ⟨_, d1⟩, -⟩ := Bus.replay_xferInstr .functionSet hl hw
  obtain ⟨w2, l2, ⟨_, d2⟩, -⟩ := Bus.replay_xferInstr (.displayOn false false) l1 w1
  obtain ⟨w3, l3, ⟨_, d3⟩, -⟩ := Bus.replay_xferInstr .entryModeSet l2 w2
  obtain ⟨w4, l4, ⟨_, d4⟩, -⟩ := Bus.replay_xferInstr .clearDisplay l3 w3
  refine ⟨w4, l4, d4.trans ?_⟩
  rw [d3, d2, d1]
  rfl

/-- A select overwrites whatever register checker and line held, so it makes a bus in Idle one that starts afresh. -/
theorem Bus.call_selIr_restart {line : RsShadow} (hw : b.watch = .running line .idle) :
    b.call .selIr .ok = (b.restart rs).call .selIr .ok := by
  simp [Bus.call, Bus.restart, hw, Checker.onCall, Line.onCall, Bus.devAfter, Bus.latched, Bus.answersAfter]

/-- Init does not ask for the line's register where the shadow is unknown, and agrees with it where it is known. -/
theorem Bus.replay_initSeq_restart {line : RsShadow} (hw : b.watch = .running line .idle)
    (hk : rs ≠ .unknown → line = rs ∧ b.line.rs = rs) : b.replay (initSeq rs) = (b.restart rs).replay (initSeq rs) := by
  cases rs with
  | unknown =>
    obtain ⟨ps, hps⟩ : ∃ ps, initSeq .unknown = .selIr :: ps := ⟨_, rfl⟩
    rw [hps, Bus.replay_cons, Bus.replay_cons, Bus.call_selIr_restart hw]
  | known r =>
    obtain ⟨rfl, hl⟩ := hk (by simp)
    have hb : b.restart (.known r) = b := by
      obtain ⟨⟨lrs, _⟩, _, _, _, _, _⟩ := b
      cases hl
      cases hw
      rfl
    rw [hb]

/-! ### The mirror property without the counter, which a row's end leaves behind until the next row is addressed -/

/-- All of `Mirrors` but where the counter stands. -/
structure Shows (c : Config) (rs : RsShadow) (buf : List Cell) (b : Bus) : Prop where
  contract : b.watch = .running rs .idle
  line : b.line.rs = rs
  twoLines : b.dev.twoLines = true
  increment : b.dev.increment = true
  displayOn : b.dev.displayOn = true
  shiftOnWrite : b.dev.shiftOnWrite = false
  notShifted : b.dev.displayShift = 0
  shown : ∀ q < cellCount c, bufRead q buf ≠ .unknown → b.dev.ddram.read (addrOf c q) = bufRead q buf

theorem Mirrors.shows (h : Mirrors c rs cur buf b) : Shows c rs buf b := { h with }

/-- With the counter at a cell the device agrees with a cursor there. -/
theorem Shows.mirrors (h : Shows c rs buf b) (hq : cur < cellCount c) (hac : b.dev.ac.toNat = addrOf c cur) :
    Mirrors c rs cur buf b :=
  { h with
    onCell := fun _ => hac
    atEnd := fun he => absurd he hq.ne }

theorem Admitted.cellCount_pos (h : Admitted c) : 0 < cellCount c := Nat.mul_pos h.pos.1 h.pos.2

/-- A clear of a controller in the modes that Init sets. -/
theorem Mirrors.of_clear {d : Device} (ha : Admitted c) (hw : b.watch = .running rs .idle) (hl : b.line.rs = rs)
    (hd : b.dev = d.clear) (hca : d.clearAddr = addrOperand c 0) (h2 : d.twoLines = true) (hi : d.increment = true)
    (ho : d.displayOn = true) (hs : d.shiftOnWrite = false) : Mirrors c rs 0 (filled c .blank) b := by
  have hac : b.dev.ac.toNat = addrOf c 0 := by
    rw [hd, ← ha.addrOperand_toNat 0 ha.cellCount_pos, ← hca]
    rfl
  refine Shows.mirrors ⟨hw, hl, ?_, ?_, ?_, ?_, ?_, fun q hq _ => ?_⟩ ha.cellCount_pos hac <;> rw [hd]
  · exact h2
  · exact hi
  · exact ho
  · exact hs
  · rfl
  · rw [bufRead_filled c _ q hq]
    rfl

theorem Mirrors.after_initSeq (ha : Admitted c) (hl : b.line.rs = rs) (hw : b.watch = .running rs .idle)
    (hca : b.dev.clearAddr = addrOperand c 0) :
    Mirrors c (initPost c).rs (initPost c).cur (initPost c).buf (b.replay (initSeq rs)) :=
  have ⟨hw', hl', hd'⟩ := Bus.replay_initSeq hl hw
  Mirrors.of_clear ha hw' hl' hd' hca rfl rfl rfl rfl

theorem Shows.after_clearSeq (h : Shows c rs buf b) (ha : Admitted c) (hca : b.dev.clearAddr = addrOperand c 0) :
    Mirrors c (clearPost c).rs (clearPost c).cur (clearPost c).buf (b.replay (clearSeq rs)) :=
  have ⟨hw, hl, ⟨_, hd⟩, _⟩ := Bus.replay_xferInstr .clearDisplay h.line h.contract
  Mirrors.of_clear ha hw hl hd hca h.twoLines h.increment h.displayOn h.shiftOnWrite

/-- Addressing a cell puts the counter there and changes nothing shown. -/
theorem Shows.after_setAddress (h : Shows c rs buf b) (ha : Admitted c) {q : Nat} (hq : q < cellCount c) :
    Mirrors c (.known .ir) q buf (b.replay (xferInstr rs (.setDdramAddress (addrOperand c q))).1) := by
  obtain ⟨hw, hl, ⟨n, hd⟩, -⟩ := Bus.replay_xferInstr (.setDdramAddress (addrOperand c q)) h.line h.contract
  refine Shows.mirrors ⟨hw, hl, ?_, ?_, ?_, ?_, ?_, ?_⟩ hq ?_ <;> rw [hd]
  · exact h.twoLines
  · exact h.increment
  · exact h.displayOn
  · exact h.shiftOnWrite
  · exact h.notShifted
  · exact h.shown
  · exact ha.addrOperand_toNat q hq

/-! ### Text -/

theorem xferInstr_data_shadow (sh : RsShadow) (x : Byte) : (xferInstr sh (.data x)).2 = .known .dr := rfl

theorem bufRead_bufWrite_other {q q' : Nat} (x : Cell) (buf : List Cell) (h : q' ≠ q) :
    bufRead q' (bufWrite q x buf) = bufRead q' buf := by
  simp [bufRead, bufWrite, List.getD_eq_getElem?_getD, List.getElem?_set_ne h.symm]

theorem bufRead_bufWrite_same (q : Nat) (x : Cell) (buf : List Cell) :
    bufRead q (bufWrite q x buf) = if q < buf.length then x else .unknown := by
  rw [bufRead, bufWrite, List.getD_eq_getElem?_getD, List.getElem?_set_self']
  by_cases h : q < buf.length <;> simp [h]

/-- A character stored at a cell's address is what that cell shows, and no other cell has that address (R129). -/
theorem Shows.after_data (h : Shows c rs buf b) (ha : Admitted c) {q : Nat} (hq : q < cellCount c)
    (hac : b.dev.ac.toNat = addrOf c q) (x : Byte) :
    Shows c (.known .dr) (bufWrite q (.char x) buf) (b.replay (xferInstr rs (.data x)).1) ∧
    (∃ n, (b.replay (xferInstr rs (.data x)).1).dev.ac = nextAddr true n b.dev.ac) ∧
    b.storesAt (xferInstr rs (.data x)).1 = [b.dev.ac] := by
  obtain ⟨hw, hl, ⟨n, hd⟩, hst⟩ := Bus.replay_xferInstr (.data x) h.line h.contract
  refine ⟨⟨hw, hl, ?_, ?_, ?_, ?_, ?_, fun q' hq' hne => ?_⟩, ⟨n, ?_⟩, hst⟩
  · rw [hd]; exact h.twoLines
  · rw [hd]; exact h.increment
  · rw [hd]; exact h.displayOn
  · rw [hd]; exact h.shiftOnWrite
  · simp [hd, effectOf, Device.store, Device.shiftAfterWrite, h.shiftOnWrite, h.notShifted]
  · rw [hd]
    by_cases he : q' = q
    · subst he
      rw [bufRead_bufWrite_same] at hne ⊢
      split at hne
      · rw [if_pos ‹_›, ← hac]
        exact Ddram.read_write_same _ _ _
      · exact absurd rfl hne
    · rw [bufRead_bufWrite_other _ _ he] at hne ⊢
      have haddr : addrOf c q' ≠ b.dev.ac.toNat := fun e => he (ha.injective q' hq' q hq (e.trans hac))
      exact (Ddram.read_write_other _ _ _ _ haddr).trans (h.shown q' hq' hne)
  · simp [hd, effectOf, Device.store, Device.advance, h.increment, h.twoLines]

/-- Inside a row, and past the last cell, the counter goes on by itself (R34). -/
theorem Shows.mirrors_next (h : Shows c rs buf b) (ha : Admitted c) {q n : Nat} {a : Addr} (hq : q < cellCount c)
    (hr : endsRow c q = false) (haddr : a.toNat = addrOf c q) (hac : b.dev.ac = nextAddr true n a) :
    Mirrors c rs (q + 1) buf b := by
  by_cases hlast : q + 1 < cellCount c
  · exact h.mirrors hlast (hac ▸ ha.nextAddr_in_row q n hlast hr a haddr)
  · refine { h with
      onCell := fun hlt => absurd hlt hlast
      atEnd := fun he => ?_ }
    have hop : addrOperand c (cellCount c - 1) = a := by
      rw [← he, Nat.add_sub_cancel]
      exact BitVec.eq_of_toNat_eq ((ha.addrOperand_toNat q hq).trans haddr.symm)
    have hrange := ha.range q hq
    rw [hop, hac]
    exact nextAddr_stated a n 0 (by omega)

theorem Bus.storesAt_rewrap (c : Config) (q : Nat) (hl : b.line.rs = rs) (hw : b.watch = .running rs .idle) :
    b.storesAt (rewrap c rs q).1 = [] := by
  unfold rewrap
  split
  · exact (Bus.replay_xferInstr (.setDdramAddress (addrOperand c (q + 1))) hl hw).2.2.2
  · rfl

/-- After a character and the re-address that may follow it the device agrees with the cursor one cell on. -/
theorem Shows.after_rewrap (h : Shows c rs buf b) (ha : Admitted c) {q n : Nat} {a : Addr} (hq : q < cellCount c)
    (haddr : a.toNat = addrOf c q) (hac : b.dev.ac = nextAddr true n a) :
    Mirrors c (rewrap c rs q).2 (q + 1) buf (b.replay (rewrap c rs q).1) := by
  cases hr : endsRow c q with
  | true =>
    have hlt : q + 1 < cellCount c := by
      simp only [endsRow, Bool.and_eq_true, decide_eq_true_eq] at hr
      exact hr.2
    simp only [rewrap, hr, if_true]
    exact h.after_setAddress ha hlt
  | false =>
    simp only [rewrap, hr, Bool.false_eq_true, if_false]
    exact h.mirrors_next ha hq hr haddr hac

/-- A text that fits: the device agrees with the cursor past it, and has stored the bytes at the addresses of their cells. -/
theorem Mirrors.after_writeSeq (ha : Admitted c) (text : List Byte) {q : Nat} (h : Mirrors c rs q buf b)
    (hfit : q + text.length ≤ cellCount c) :
    Mirrors c (writeSeq c rs q text).2 (q + text.length) (bufWriteText q text buf) (b.replay (writeSeq c rs q text).1) ∧
    (b.storesAt (writeSeq c rs q text).1).map BitVec.toNat = (List.range text.length).map fun i => addrOf c (q + i) := by
  induction text generalizing rs q buf b with
  | nil => exact ⟨h, rfl⟩
  | cons x xs ih =>
    rw [List.length_cons] at hfit ⊢
    have hq : q < cellCount c := by omega
    have hac := h.onCell hq
    obtain ⟨h1, ⟨n, hn⟩, hst⟩ := h.shows.after_data ha hq hac x
    have h2 := h1.after_rewrap ha hq hac hn
    obtain ⟨h3, hst3⟩ := ih h2 (by omega)
    simp only [writeSeq, Bus.replay_append, Bus.storesAt_append, xferInstr_data_shadow, hst]
    constructor
    · rwa [show q + (xs.length + 1) = q + 1 + xs.length by omega]
    · rw [Bus.storesAt_rewrap c q h1.line h1.contract, List.append_nil, List.map_append, hst3, List.range_succ_eq_map]
      simp [hac, Nat.add_assoc, Nat.add_comm 1, Function.comp_def]

end Sys2Proof.Machine
end

section
/-! SUPPORT. The mirror property (R34) by phase, and the steps that keep it. -/

namespace Sys2Proof.Machine

variable {s t : State} {q : Request} {p : Prim}

theorem State.mirrorKept_ready (hp : s.seq.phase = .ready) :
    s.MirrorKept ↔ s.bus.inbox = [] ∧ s.bus.dev.clearAddr = addrOperand s.cfg 0 ∧
      ∀ q, s.seq.cur = some q → Mirrors s.cfg s.seq.rs q s.seq.buf s.bus := by
  simp only [State.MirrorKept, hp]

theorem State.mirrorKept_busy (hp : s.seq.phase = .busy) :
    s.MirrorKept ↔ s.bus.inbox = [] ∧ s.bus.dev.clearAddr = addrOperand s.cfg 0 ∧
      (s.midway = false → ∃ l, s.bus.watch = .running l .idle) ∧
      Mirrors s.cfg s.seq.post.rs s.seq.post.cur s.seq.post.buf (s.bus.replay s.seq.pend) := by
  simp only [State.MirrorKept, hp]

theorem State.mirrorKept_desync (hp : s.seq.phase = .desync) :
    s.MirrorKept ↔ s.bus.inbox = [] ∧ s.bus.dev.clearAddr = addrOperand s.cfg 0 ∧
      s.bus.watch = .running .unknown .idle := by
  simp only [State.MirrorKept, hp]

/-- The property speaks of neither the port nor, outside Busy, the last response and the trace. -/
theorem State.MirrorKept.port (h : s.MirrorKept) (qs : List Request) : ({ s with port := qs } : State).MirrorKept := h

theorem State.MirrorKept.respond (h : s.MirrorKept) (hp : s.seq.phase ≠ .busy) (e : Event) (r : Response) :
    ((s.record e).respond r).MirrorKept := by
  cases hph : s.seq.phase with
  | busy => exact absurd hph hp
  | ready =>
    rw [State.mirrorKept_ready hph] at h
    exact (State.mirrorKept_ready (by simpa using hph)).2 h
  | desync =>
    rw [State.mirrorKept_desync hph] at h
    exact (State.mirrorKept_desync (by simpa using hph)).2 h

/-- An operation that has just started keeps the property if its checker is idle and its calls will mirror its post. -/
theorem State.mirrorKept_start {op : OpTag} {ps : List Prim} {x : Post} {l : RsShadow} (hi : s.bus.inbox = [])
    (hc : s.bus.dev.clearAddr = addrOperand s.cfg 0) (hw : s.bus.watch = .running l .idle)
    (hm : Mirrors s.cfg x.rs x.cur x.buf (s.bus.replay ps)) : (s.start op ps x).MirrorKept :=
  (State.mirrorKept_busy rfl).2 ⟨hi, hc, fun _ => ⟨l, hw⟩, hm⟩

/-- Taking an Init gives the property, whatever checker, line and controller hold (R116; log 14, log 24). -/
theorem State.mirrorKept_start_init {op : OpTag} (hi : s.bus.inbox = [])
    (hc : s.bus.dev.clearAddr = addrOperand s.cfg 0) (ha : Admitted s.cfg) :
    (s.start op (initSeq s.seq.rs) (initPost s.cfg)).restart.MirrorKept :=
  State.mirrorKept_start (s := s.restart) (l := s.seq.rs) hi hc rfl
    (Mirrors.after_initSeq (b := s.restart.bus) ha rfl rfl hc)

/-- A Ready state of which R31 and R34 hold has a cursor, at which the device agrees. -/
theorem State.MirrorKept.mirrors (h : s.MirrorKept) (hcoh : s.seq.Coherent s.cfg) (hp : s.seq.phase = .ready) :
    ∃ q, s.seq.cur = some q ∧ Mirrors s.cfg s.seq.rs q s.seq.buf s.bus := by
  obtain ⟨-, -, hm⟩ := (State.mirrorKept_ready hp).1 h
  obtain ⟨q, hq, -⟩ := (hcoh.ready hp).cursor
  exact ⟨q, hq, hm q hq⟩

/-- A started operation other than Init finds the device in agreement, and will leave it so. -/
theorem Starts.mirrors {ps : List Prim} {x : Post} (hst : Starts s q ps x) (hq : q ≠ .init) (ha : Admitted s.cfg)
    (hcoh : s.seq.Coherent s.cfg) (h : s.MirrorKept) :
    s.bus.watch = .running s.seq.rs .idle ∧ Mirrors s.cfg x.rs x.cur x.buf (s.bus.replay ps) := by
  have hca : s.bus.dev.clearAddr = addrOperand s.cfg 0 := h.2.1
  cases q with
  | init => exact absurd rfl hq
  | clear =>
    obtain ⟨hp, rfl, rfl⟩ := hst
    obtain ⟨q, -, hm⟩ := h.mirrors hcoh hp
    exact ⟨hm.contract, hm.shows.after_clearSeq ha hca⟩
  | setCursor col row =>
    obtain ⟨hp, hcol, hrow, rfl, rfl⟩ := hst
    obtain ⟨q, -, hm⟩ := h.mirrors hcoh hp
    exact ⟨hm.contract, hm.shows.after_setAddress ha (position_lt hcol hrow)⟩
  | writeText text =>
    obtain ⟨hp, -, q, hcur, hfit, rfl, rfl⟩ := hst
    obtain ⟨q', hq', hm⟩ := h.mirrors hcoh hp
    obtain rfl : q = q' := Option.some.inj (hcur.symm.trans hq')
    exact ⟨hm.contract, (hm.after_writeSeq ha text hfit).1⟩

theorem exec_request_keeps_mirror (ha : Admitted s.cfg) (hcoh : s.seq.Coherent s.cfg) (hm : s.MirrorKept)
    (hp : s.seq.phase ≠ .busy) (h : exec q.toInstr s = .next t) : t.MirrorKept := by
  rcases exec_request_cases h with ⟨hb, -⟩ | ⟨-, -, r, -, rfl⟩ | ⟨-, -, ps, x, hst, rfl⟩
  · exact absurd hb hp
  · exact hm.respond hp _ r
  · have ⟨hi, hc, _⟩ := hm
    by_cases hq : q = .init
    · subst hq
      obtain ⟨rfl, rfl⟩ := hst
      exact State.mirrorKept_start_init (s := s.record (.req .init)) hi hc ha
    · obtain ⟨hw, hx⟩ := hst.mirrors hq ha hcoh hm
      rw [State.opened_of_ne_init hq]
      exact State.mirrorKept_start (s := s.record (.req q)) hi hc hw hx

/-- The sequencer's own call, answered Ok or Fail, keeps the property. -/
theorem State.MirrorKept.issue (h : s.MirrorKept) {op : OpTag} {rest : List Prim} (hs : s.Issues op p rest) :
    (s.issue op p rest).MirrorKept := by
  obtain ⟨hp, -, hpend⟩ := hs
  obtain ⟨hi, hc, -, hm⟩ := (State.mirrorKept_busy hp).1 h
  rw [hpend] at hm
  have hc' : (s.issue op p rest).bus.dev.clearAddr = addrOperand s.cfg 0 := (Bus.devAfter_clearAddr _ _ _).trans hc
  cases ha : s.bus.answerTo p with
  | fail =>
    have hv : s.bus.watch ≠ .violation := fun hv => by
      have hcontract := hm.contract
      rw [Bus.replay_violation _ hv] at hcontract
      cases hcontract
    refine (State.mirrorKept_desync (by simp [ha, Seq.issue_fail])).2 ⟨hi, hc', ?_⟩
    simp [ha, Checker.onCall_fail _ _ hv]
  | ok =>
    cases rest with
    | nil =>
      refine (State.mirrorKept_ready (by simp [ha, Seq.issue_last])).2 ⟨hi, hc', fun q hq => ?_⟩
      simp only [State.issue_seq, State.issue_bus, State.issue_cfg, ha, Seq.issue_last] at hq ⊢
      cases hq
      exact hm
    | cons p' ps =>
      refine (State.mirrorKept_busy (by simp [ha, Seq.issue_more, hp])).2 ⟨hi, hc', fun hmid => ?_, ?_⟩
      · simp [State.midway, ha, Seq.issue_more, hp, isCall] at hmid
      · simp only [State.issue_seq, State.issue_bus, State.issue_cfg, ha, Seq.issue_more]
        exact hm

theorem step_keeps_mirror (ha : Admitted s.cfg) (hcoh : s.seq.Coherent s.cfg) (hm : s.MirrorKept)
    (h : step s = .next t) : t.MirrorKept := by
  rcases step_cases h with ⟨w, ws, hi, -⟩ | ⟨op, p, rest, -, hp, ho, hl, rfl⟩ | ⟨q, qs, -, hp, -, he⟩ | ⟨-, -, -, rfl⟩
  · cases hm.1.symm.trans hi
  · exact hm.issue ⟨hp, ho, hl⟩
  · exact exec_request_keeps_mirror (s := { s with port := qs }) ha hcoh (hm.port qs) hp he
  · exact hm

end Sys2Proof.Machine
end

section
open Sys2Proof Sys2Proof.Machine

/-- Settles O48, by the agent that moves: a call takes the device one call along the way that leads to the post, and a request
starts a sequence that leads there. -/
theorem stepKeepsTheMirror : Obligations.StepKeepsTheMirror :=
  fun _ _ ha hcoh hm h => step_keeps_mirror ha hcoh hm h
end

section
/-! SUPPORT. Which step is taken, forwards: the sequencer's answer to a request as a function of parameters and record, and the
step of each agent. -/

namespace Sys2Proof.Machine

variable {s t : State} {q : Request} {p : Prim}

/-- How the sequencer treats a request. -/
inductive Verdict where
  | held
  | answered (r : Response)
  | started (ps : List Prim) (x : Post)
  | stopped (f : Fault)

/-- How a request is treated where it is carried out (R83 to R90). -/
def carriedOut (c : Config) (S : Seq) : Request → Verdict
  | .init => .started (initSeq S.rs) (initPost c)
  | .clear => .started (clearSeq S.rs) (clearPost c)
  | .setCursor col row =>
    if col ≥ c.w ∨ row ≥ c.h then .answered (.err .setCursor .cursorOutOfRange)
    else .started (cursorSeq c S.rs col row) (cursorPost c col row S.buf)
  | .writeText text =>
    if text = [] then .answered (.done .writeText)
    else
      match S.cur with
      | none => .stopped .cursorUnknown
      | some p =>
        if p + text.length > cellCount c then .answered (.err .writeText .textOverflow)
        else .started (writeSeq c S.rs p text).1 (writePost c S.rs p text S.buf)

/-- How a request is treated (R78, R80, R115, R117): it reads phase, shadow, cursor and buffer, and nothing else of S. -/
def verdict (c : Config) (S : Seq) (q : Request) : Verdict :=
  match S.phase with
  | .busy => .held
  | .ready => carriedOut c S q
  | .desync => if q.tag = .init then carriedOut c S q else .answered (.err q.tag .desynchronized)

/-- The next state by a verdict. -/
def State.follow (s : State) (q : Request) : Verdict → Result
  | .held => .next (s.hold q)
  | .answered r => .next ((s.record (.req q)).respond r)
  | .started ps x => .next (((s.record (.req q)).start q.tag ps x).opened q)
  | .stopped f => .fault f

/-- Taking a request whose body follows what carrying it out gives is following its verdict. -/
theorem State.take_eq_follow {body : State → Result}
    (hb : body (s.record (.req q)) = s.follow q (carriedOut s.cfg s.seq q)) :
    s.take q body = s.follow q (verdict s.cfg s.seq q) := by
  cases hp : s.seq.phase with
  | busy => simp only [State.take, verdict, hp, State.follow]
  | ready => simp only [State.take, verdict, hp, hb]
  | desync =>
    simp only [State.take, verdict, hp]
    split
    · exact hb
    · rfl

theorem exec_request_eq (q : Request) (s : State) : exec q.toInstr s = s.follow q (verdict s.cfg s.seq q) := by
  cases q with
  | init =>
    unfold Request.toInstr exec execInit
    exact State.take_eq_follow rfl
  | clear =>
    unfold Request.toInstr exec execClear
    exact State.take_eq_follow rfl
  | setCursor col row =>
    unfold Request.toInstr exec execSetCursor
    refine State.take_eq_follow ?_
    simp only [carriedOut]
    split <;> rfl
  | writeText text =>
    unfold Request.toInstr exec execWriteText
    refine State.take_eq_follow ?_
    simp only [carriedOut]
    split
    · rfl
    · cases s.seq.cur with
      | none => rfl
      | some p =>
        dsimp only
        split <;> rfl

/-! ### The step of each agent -/

theorem step_of_listed_word {w : DevWord} {ws : List DevWord} {d : DevInstr} (hi : s.bus.inbox = w :: ws)
    (hd : decodeDevice w = some d) : step s = .next (({ s with bus := { s.bus with inbox := ws } } : State).obey d) :=
  (step_of_fetch_runs ((State.fetch_of_inbox_cons hi).trans (State.fetchDevice_of_listed ws hd))).trans (exec_device d _)

theorem step_of_unlisted_word {w : DevWord} {ws : List DevWord} (hi : s.bus.inbox = w :: ws)
    (hd : decodeDevice w = none) :
    step s = .next (({ s with bus := { s.bus with inbox := ws } } : State).obeyUnlisted w) :=
  step_of_fetch_goesOn ((State.fetch_of_inbox_cons hi).trans (by simp only [State.fetchDevice, hd]))

theorem step_of_issues {op : OpTag} {rest : List Prim} (hi : s.bus.inbox = []) (h : s.Issues op p rest) :
    step s = .next (s.issue op p rest) := by
  obtain ⟨hp, ho, hl⟩ := h
  rw [step_runs_pending_head hi ⟨hp, ho, hl⟩, exec_prim, State.call_issue hp ho hl]

/-! ### No stop -/

/-- In a coherent state no request is met without a cursor. -/
theorem Seq.Coherent.verdict_ne_stopped {c : Config} {S : Seq} (h : S.Coherent c) (q : Request) (f : Fault) :
    verdict c S q ≠ .stopped f := by
  have carried : S.phase = .ready ∨ q.tag = .init → carriedOut c S q ≠ .stopped f := by
    intro hr
    cases q with
    | init => exact fun he => Verdict.noConfusion he
    | clear => exact fun he => Verdict.noConfusion he
    | setCursor col row =>
      simp only [carriedOut]
      split <;> simp
    | writeText text =>
      obtain ⟨p, hcur, -⟩ := (h.ready (hr.resolve_right fun he => OpTag.noConfusion he)).cursor
      simp only [carriedOut, hcur]
      repeat' split
      all_goals simp
  cases hp : S.phase with
  | busy => simp [verdict, hp]
  | ready => simpa only [verdict, hp] using carried (.inl hp)
  | desync =>
    simp only [verdict, hp]
    split
    · exact carried (.inr ‹_›)
    · simp

theorem Seq.Coherent.exec_request_next (h : s.seq.Coherent s.cfg) (q : Request) : ∃ t, exec q.toInstr s = .next t := by
  rw [exec_request_eq]
  cases hv : verdict s.cfg s.seq q with
  | held => exact ⟨_, rfl⟩
  | answered r => exact ⟨_, rfl⟩
  | started ps x => exact ⟨_, rfl⟩
  | stopped f => exact absurd hv (h.verdict_ne_stopped q f)

theorem Seq.Coherent.step_next (h : s.seq.Coherent s.cfg) : ∃ t, step s = .next t := by
  cases hi : s.bus.inbox with
  | cons w ws =>
    cases hd : decodeDevice w with
    | some d => exact ⟨_, step_of_listed_word hi hd⟩
    | none => exact ⟨_, step_of_unlisted_word hi hd⟩
  | nil =>
    by_cases hp : s.seq.phase = .busy
    · obtain ⟨op, hop⟩ := (h.busy hp).operation
      obtain ⟨p, rest, hl⟩ := List.exists_cons_of_ne_nil (h.busy hp).pending
      exact ⟨_, step_of_issues hi ⟨hp, hop, hl⟩⟩
    · cases hq : s.port with
      | nil => exact ⟨s, step_idle hi hp hq⟩
      | cons q qs =>
        rw [step_runs_port_head hi hp hq]
        exact Seq.Coherent.exec_request_next (s := { s with port := qs }) h q

/-! ### The trace -/

/-- What an issue step adds to the trace (R81, R114). -/
def issueEvents (op : OpTag) (p : Prim) (rest : List Prim) : Answer → List Event
  | .fail => [.call p .fail, .resp (.err op .transportError)]
  | .ok => .call p .ok :: if rest = [] then [.resp (.done op)] else []

theorem State.issue_withTrace (s : State) (op : OpTag) (p : Prim) (rest : List Prim) (es : List Event) :
    (s.withTrace es).issue op p rest =
      (s.issue op p rest).withTrace (es ++ issueEvents op p rest (s.bus.answerTo p)) := by
  unfold State.issue State.withTrace
  cases s.bus.answerTo p with
  | fail => simp [Seq.issue_fail, Seq.record, Seq.respond, Seq.enterDesync, issueEvents]
  | ok =>
    cases rest with
    | nil => simp [Seq.issue_last, Seq.record, Seq.respond, Seq.commit, issueEvents]
    | cons p' ps => simp [Seq.issue_more, issueEvents]

/-- The events that following a verdict adds. -/
def Verdict.events (q : Request) : Verdict → List Event
  | .held => []
  | .answered r => [.req q, .resp r]
  | .started _ _ => [.req q]
  | .stopped _ => []

theorem State.follow_withTrace {v : Verdict} (es : List Event) (h : s.follow q v = .next t) :
    (s.withTrace es).follow q v = .next (t.withTrace (es ++ v.events q)) := by
  cases v with
  | stopped f => cases h
  | held =>
    cases h
    simp [State.follow, State.withTrace, State.hold, Verdict.events]
  | answered r =>
    cases h
    simp [State.follow, State.withTrace, State.record, State.respond, Seq.record, Seq.respond, Verdict.events]
  | started ps x =>
    cases h
    cases q <;> rfl

/-- A request's verdict does not ask for the trace. -/
theorem exec_request_withTrace (es : List Event) (h : exec q.toInstr s = .next t) :
    exec q.toInstr (s.withTrace es) = .next (t.withTrace (es ++ (verdict s.cfg s.seq q).events q)) := by
  rw [exec_request_eq] at h ⊢
  exact State.follow_withTrace es h

/-- A step from the state with any trace appends the same events to it. -/
theorem step_withTrace (h : step s = .next t) :
    ∃ new, ∀ es, step (s.withTrace es) = .next (t.withTrace (es ++ new)) := by
  rcases step_cases h with ⟨w, ws, hi, ⟨d, hd, rfl⟩ | ⟨hd, rfl⟩⟩ | ⟨op, p, rest, hi, hp, ho, hl, rfl⟩ |
    ⟨q, qs, hi, hp, hq, he⟩ | ⟨hi, hp, hq, rfl⟩
  · refine ⟨[], fun es => ?_⟩
    rw [List.append_nil]
    exact step_of_listed_word (s := s.withTrace es) hi hd
  · refine ⟨[], fun es => ?_⟩
    rw [List.append_nil]
    exact step_of_unlisted_word (s := s.withTrace es) hi hd
  · refine ⟨issueEvents op p rest (s.bus.answerTo p), fun es => ?_⟩
    rw [← State.issue_withTrace]
    exact step_of_issues (s := s.withTrace es) hi ⟨hp, ho, hl⟩
  · refine ⟨(verdict s.cfg s.seq q).events q, fun es => ?_⟩
    rw [step_runs_port_head (s := s.withTrace es) hi hp hq]
    exact exec_request_withTrace (s := { s with port := qs }) es he
  · refine ⟨[], fun es => ?_⟩
    rw [List.append_nil]
    exact step_idle (s := t.withTrace es) hi hp hq

/-! ### Blindness to the device -/

/-- Two states that agree in all that the sequencer and the answers depend on. -/
structure SameSequencer (s u : State) : Prop where
  cfg : u.cfg = s.cfg
  seq : u.seq = s.seq
  port : u.port = s.port
  answers : u.bus.answers = s.bus.answers
  draws : u.bus.draws = s.bus.draws

variable {u : State}

theorem SameSequencer.answerTo (h : SameSequencer s u) (p : Prim) : u.bus.answerTo p = s.bus.answerTo p := by
  have hnext : u.bus.nextAnswer = s.bus.nextAnswer := by simp only [Bus.nextAnswer, h.answers, h.draws]
  cases p with
  | wait d => rfl
  | _ => exact hnext

theorem SameSequencer.answersAfter (h : SameSequencer s u) (p : Prim) : u.bus.answersAfter p = s.bus.answersAfter p := by
  cases p <;> simp only [Bus.answersAfter, h.answers]

theorem SameSequencer.obey (h : SameSequencer s u) (d : DevInstr) : SameSequencer (s.obey d) (u.obey d) where
  cfg := h.cfg
  seq := h.seq
  port := h.port
  answers := by simp [Bus.obey, h.answers]
  draws := by simp [Bus.obey, h.draws]

theorem SameSequencer.issue (h : SameSequencer s u) (op : OpTag) (p : Prim) (rest : List Prim) :
    SameSequencer (s.issue op p rest) (u.issue op p rest) where
  cfg := h.cfg
  seq := by simp [h.seq, h.cfg, h.answerTo]
  port := h.port
  answers := h.answersAfter p
  draws := congrArg (· + 1) h.draws

theorem SameSequencer.bypass (h : SameSequencer s u) (p : Prim) : SameSequencer (s.bypass p) (u.bypass p) where
  cfg := h.cfg
  seq := h.seq
  port := h.port
  answers := by simp [h.answersAfter]
  draws := by simp [h.draws]

theorem SameSequencer.call (h : SameSequencer s u) (p : Prim) : SameSequencer (s.call p) (u.call p) := by
  rcases State.call_cases s p with ⟨op, rest, hp, ho, hl, hc⟩ | ⟨hn, hc⟩
  · rw [hc, State.call_issue (s := u) (h.seq ▸ hp) (h.seq ▸ ho) (h.seq ▸ hl)]
    exact h.issue op p rest
  · rw [hc, State.call_bypass (s := u) (h.seq ▸ hn)]
    exact h.bypass p

@[simp] theorem State.opened_answers (q : Request) (s : State) : (s.opened q).bus.answers = s.bus.answers := by
  rw [State.opened_bus]

@[simp] theorem State.opened_draws (q : Request) (s : State) : (s.opened q).bus.draws = s.bus.draws := by
  rw [State.opened_bus]

theorem SameSequencer.follow (h : SameSequencer s u) {v : Verdict} (hs : s.follow q v = .next t) :
    ∃ t', u.follow q v = .next t' ∧ SameSequencer t t' := by
  cases v with
  | stopped f => cases hs
  | held =>
    cases hs
    exact ⟨_, rfl, h.cfg, h.seq, congrArg (q :: ·) h.port, h.answers, h.draws⟩
  | answered r =>
    cases hs
    exact ⟨_, rfl, h.cfg, by simp [h.seq], h.port, h.answers, h.draws⟩
  | started ps x =>
    cases hs
    refine ⟨_, rfl, ?_, ?_, ?_, ?_, ?_⟩
    · simpa using h.cfg
    · simp [h.seq]
    · simpa using h.port
    · simpa using h.answers
    · simpa using h.draws

theorem SameSequencer.exec_request (h : SameSequencer s u) (hs : exec q.toInstr s = .next t) :
    ∃ t', exec q.toInstr u = .next t' ∧ SameSequencer t t' := by
  rw [exec_request_eq] at hs ⊢
  rw [h.cfg, h.seq]
  exact h.follow hs

/-- Every instruction is a device word, a request or a primitive. -/
theorem instr_by_column (i : Instr) :
    (∃ d : DevInstr, i = d.toInstr) ∨ (∃ q : Request, i = q.toInstr) ∨ ∃ p : Prim, i = p.toInstr := by
  cases i with
  | clearDisplay => exact .inl ⟨.clearDisplay, rfl⟩
  | returnHome => exact .inl ⟨.returnHome, rfl⟩
  | displayOnCursorOffBlinkOff => exact .inl ⟨.displayOn false false, rfl⟩
  | displayOnCursorOffBlinkOn => exact .inl ⟨.displayOn false true, rfl⟩
  | displayOnCursorOnBlinkOff => exact .inl ⟨.displayOn true false, rfl⟩
  | displayOnCursorOnBlinkOn => exact .inl ⟨.displayOn true true, rfl⟩
  | entryModeSet => exact .inl ⟨.entryModeSet, rfl⟩
  | functionSet => exact .inl ⟨.functionSet, rfl⟩
  | cursorShiftLeft => exact .inl ⟨.cursorShiftLeft, rfl⟩
  | cursorShiftRight => exact .inl ⟨.cursorShiftRight, rfl⟩
  | setDdramAddress a => exact .inl ⟨.setDdramAddress a, rfl⟩
  | dataWrite d => exact .inl ⟨.data d, rfl⟩
  | init => exact .inr (.inl ⟨.init, rfl⟩)
  | clear => exact .inr (.inl ⟨.clear, rfl⟩)
  | setCursor col row => exact .inr (.inl ⟨.setCursor col row, rfl⟩)
  | writeText text => exact .inr (.inl ⟨.writeText text, rfl⟩)
  | selIr => exact .inr (.inr ⟨.selIr, rfl⟩)
  | selDr => exact .inr (.inr ⟨.selDr, rfl⟩)
  | tx b => exact .inr (.inr ⟨.tx b, rfl⟩)
  | pulse => exact .inr (.inr ⟨.pulse, rfl⟩)
  | waitShort => exact .inr (.inr ⟨.wait .short, rfl⟩)
  | waitLong => exact .inr (.inr ⟨.wait .long, rfl⟩)

theorem SameSequencer.exec (h : SameSequencer s u) {i : Instr} (hs : exec i s = .next t) :
    ∃ t', exec i u = .next t' ∧ SameSequencer t t' := by
  rcases instr_by_column i with ⟨d, rfl⟩ | ⟨q, rfl⟩ | ⟨p, rfl⟩
  · rw [exec_device] at hs
    cases hs
    exact ⟨_, exec_device d u, h.obey d⟩
  · exact h.exec_request hs
  · rw [exec_prim] at hs
    cases hs
    exact ⟨_, exec_prim p u, h.call p⟩

end Sys2Proof.Machine
end

section
open Sys2Proof Sys2Proof.Machine

/-- Settles O46: R31 gives Busy an operation and a pending primitive, and Ready a cursor. -/
theorem coherentStateNeverStops : Obligations.CoherentStateNeverStops :=
  fun _ h => h.step_next

/-- Settles O52, by what each agent's step appends. -/
theorem traceIsAppendOnlyAndNeverRead : Obligations.TraceIsAppendOnlyAndNeverRead := by
  intro s t es h
  obtain ⟨new, hnew⟩ := step_withTrace h
  refine ⟨new, ?_, hnew es⟩
  have hself : t = t.withTrace (s.seq.trace ++ new) := Host.Outcome.next.inj (h.symm.trans (hnew s.seq.trace))
  exact congrArg (fun u : State => u.seq.trace) hself

/-- Settles O55, by the instruction's column of the opcode table. -/
theorem sequencerIsBlindToTheDevice : Obligations.SequencerIsBlindToTheDevice := by
  intro i s u t hcfg hseq hport hans hdraws h
  obtain ⟨v, hv, hsame⟩ :=
    SameSequencer.exec (s := s) (u := u) ⟨hcfg.symm, hseq.symm, hport.symm, hans.symm, hdraws.symm⟩ h
  exact ⟨v, hv, hsame.seq, hsame.port, hsame.cfg, hsame.answers, hsame.draws⟩
end

section
/-! SUPPORT. What is left of the state's own rules: which steps change the tracker, what the observations depend on, and a
display of which nothing is known. -/

namespace Sys2Proof.Machine

variable {s t : State} {q : Request}

/-! ### Shadow, cursor, buffer and last response -/

theorem exec_request_tracker (h : exec q.toInstr s = .next t) :
    t.seq.rs = s.seq.rs ∧ t.seq.cur = s.seq.cur ∧ t.seq.buf = s.seq.buf := by
  rcases exec_request_cases h with ⟨-, rfl⟩ | ⟨-, -, r, -, rfl⟩ | ⟨-, -, ps, x, -, rfl⟩ <;> simp

/-- A request taken outside Busy that leads to Busy started its operation, and so posted no response. -/
theorem exec_request_last (hp : s.seq.phase ≠ .busy) (h : exec q.toInstr s = .next t) (ht : t.seq.phase = .busy) :
    t.seq.last = s.seq.last := by
  rcases exec_request_cases h with ⟨hb, -⟩ | ⟨-, -, r, -, rfl⟩ | ⟨-, -, ps, x, -, rfl⟩
  · exact absurd hb hp
  · exact absurd ht hp
  · simp

/-- An issue step that stays in Busy only takes a primitive off the list and records the call. -/
theorem Seq.issue_within_busy {S : Seq} {c : Config} {op : OpTag} {p : Prim} {rest : List Prim} {a : Answer}
    (h : (S.issue c op p rest a).phase = .busy) :
    S.issue c op p rest a = { S with pend := rest, trace := S.trace ++ [.call p a] } := by
  cases a with
  | fail => cases h
  | ok =>
    cases rest with
    | nil => cases h
    | cons p' ps => rfl

/-- A step within Busy leaves the parameters, the tracker and the last response. -/
theorem step_within_busy (hp : s.seq.phase = .busy) (h : step s = .next t) (ht : t.seq.phase = .busy) :
    t.cfg = s.cfg ∧ t.seq.rs = s.seq.rs ∧ t.seq.cur = s.seq.cur ∧ t.seq.buf = s.seq.buf ∧ t.seq.last = s.seq.last := by
  rcases step_cases h with ⟨w, ws, -, ⟨d, -, rfl⟩ | ⟨-, rfl⟩⟩ | ⟨op, p, rest, -, -, -, -, rfl⟩ |
    ⟨q, qs, -, hn, -, -⟩ | ⟨-, hn, -, -⟩
  · exact ⟨rfl, rfl, rfl, rfl, rfl⟩
  · exact ⟨rfl, rfl, rfl, rfl, rfl⟩
  · rw [State.issue_seq] at ht ⊢
    rw [Seq.issue_within_busy ht]
    exact ⟨rfl, rfl, rfl, rfl, rfl⟩
  · exact absurd hp hn
  · exact absurd hp hn

theorem step_tracker_outside_busy (hp : s.seq.phase ≠ .busy) (h : step s = .next t) :
    t.seq.rs = s.seq.rs ∧ t.seq.cur = s.seq.cur ∧ t.seq.buf = s.seq.buf := by
  rcases step_cases h with ⟨w, ws, -, ⟨d, -, rfl⟩ | ⟨-, rfl⟩⟩ | ⟨op, p, rest, -, hb, -, -, -⟩ | ⟨q, qs, -, -, -, he⟩ |
    ⟨-, -, -, rfl⟩
  · exact ⟨rfl, rfl, rfl⟩
  · exact ⟨rfl, rfl, rfl⟩
  · exact absurd hb hp
  · exact exec_request_tracker (s := { s with port := qs }) he
  · exact ⟨rfl, rfl, rfl⟩

/-! ### Observations -/

theorem viewOf_cell (c : Config) {q : Nat} (h : q < cellCount c) : viewOf c (some q) = .at (q % c.w) (q / c.w) :=
  if_pos h

theorem viewOf_end (c : Config) : viewOf c (some (cellCount c)) = .past := if_neg (lt_irrefl _)

theorem State.cellView_inside (s : State) {col row : Nat} (hc : col < s.cfg.w) (hr : row < s.cfg.h) :
    s.cellView col row = .ok (bufRead (position s.cfg col row) s.seq.buf) := if_pos ⟨hc, hr⟩

theorem State.cellView_outside (s : State) {col row : Nat} (h : ¬ (col < s.cfg.w ∧ row < s.cfg.h)) :
    s.cellView col row = .error .cellOutsideGeometry := if_neg h

theorem State.cursorView_congr (hcfg : t.cfg = s.cfg) (hcur : t.seq.cur = s.seq.cur) : t.cursorView = s.cursorView := by
  simp only [State.cursorView, hcfg, hcur]

theorem State.cellView_congr (hcfg : t.cfg = s.cfg) (hbuf : t.seq.buf = s.seq.buf) (col row : Nat) :
    t.cellView col row = s.cellView col row := by
  simp only [State.cellView, hcfg, hbuf]

/-- A text writes its own cells only. -/
theorem bufRead_bufWriteText_other {p q : Nat} (text : List Byte) (buf : List Cell)
    (h : q < p ∨ p + text.length ≤ q) : bufRead q (bufWriteText p text buf) = bufRead q buf := by
  induction text generalizing p buf with
  | nil => rfl
  | cons b bs ih =>
    rw [List.length_cons] at h
    rw [bufWriteText, ih _ (by omega), bufRead_bufWrite_other _ _ (by omega)]

/-! ### A display of which nothing is known -/

theorem Device.unspecified_read (d : Device) (n a : Nat) : (d.unspecified n).ddram.read a = .unknown := rfl

theorem Bus.Unspecified.change {b : Bus} (h : b.Unspecified) (f : Nat → Device → Device) : (b.change f).Unspecified := by
  refine ⟨(Bus.change_watch _ _).trans h.1, fun a => ?_⟩
  rw [Bus.change_dev_violation _ _ h.1]
  exact Device.unspecified_read _ _ _

theorem Bus.Unspecified.call {b : Bus} (h : b.Unspecified) (p : Prim) (a : Answer) : (b.call p a).Unspecified := by
  have hw : b.watch.onCall p a = .violation := by simp [h.1]
  refine ⟨hw, fun x => ?_⟩
  rw [Bus.call_dev, Bus.devAfter_violation hw]
  exact Device.unspecified_read _ _ _

/-- Where the contract is violated nothing mirrors. -/
theorem State.not_mirrorKept_of_violation (hcoh : s.seq.Coherent s.cfg) (hv : s.bus.watch = .violation) :
    ¬ s.MirrorKept := by
  intro hm
  cases hp : s.seq.phase with
  | ready =>
    obtain ⟨q, -, hq⟩ := hm.mirrors hcoh hp
    cases hv.symm.trans hq.contract
  | busy =>
    obtain ⟨-, -, -, hx⟩ := (State.mirrorKept_busy hp).1 hm
    cases (Bus.replay_violation _ hv _).symm.trans hx.contract
  | desync =>
    obtain ⟨-, -, hw⟩ := (State.mirrorKept_desync hp).1 hm
    cases hv.symm.trans hw

/-- A request other than Init does not reach the bus. -/
theorem exec_request_bus (hq : q ≠ .init) (h : exec q.toInstr s = .next t) : t.bus = s.bus := by
  rcases exec_request_cases h with ⟨-, rfl⟩ | ⟨-, -, r, -, rfl⟩ | ⟨-, -, ps, x, -, rfl⟩
  · rfl
  · rfl
  · rw [State.opened_of_ne_init hq]
    rfl

/-- Init is accepted in every state outside Busy (R83, R115). -/
theorem exec_init_of_not_busy (hp : s.seq.phase ≠ .busy) :
    exec .init s =
      .next ((s.record (.req .init)).start .init (initSeq s.seq.rs) (initPost s.cfg)).restart := by
  have hv : verdict s.cfg s.seq .init = .started (initSeq s.seq.rs) (initPost s.cfg) := by
    cases hph : s.seq.phase with
    | busy => exact absurd hph hp
    | ready => simp only [verdict, hph, carriedOut]
    | desync => simp only [verdict, hph, carriedOut, Request.tag, if_true]
  exact (exec_request_eq .init s).trans (by rw [hv]; rfl)

theorem exec_init_mirrorKept (ha : Admitted s.cfg) (hc : s.bus.dev.clearAddr = addrOperand s.cfg 0)
    (hi : s.bus.inbox = []) (hp : s.seq.phase ≠ .busy) :
    ∃ t, exec .init s = .next t ∧ t.seq.phase = .busy ∧ t.MirrorKept :=
  ⟨_, exec_init_of_not_busy hp, rfl, State.mirrorKept_start_init (s := s.record (.req .init)) hi hc ha⟩

theorem step_keeps_unspecified (hu : s.bus.Unspecified) (h : step s = .next t) :
    t.bus.Unspecified ∨
    (s.bus.inbox = [] ∧ s.seq.phase ≠ .busy ∧ s.port.head? = some .init ∧ t.seq.phase = .busy ∧ t.seq.op = some .init) := by
  rcases step_cases h with ⟨w, ws, -, ⟨d, -, rfl⟩ | ⟨-, rfl⟩⟩ | ⟨op, p, rest, -, -, -, -, rfl⟩ |
    ⟨q, qs, hi, hp, hq, he⟩ | ⟨-, -, -, rfl⟩
  · exact .inl (Bus.Unspecified.change (b := { s.bus with inbox := ws }) hu _)
  · exact .inl (Bus.Unspecified.change (b := { s.bus with inbox := ws }) hu _)
  · exact .inl (hu.call p _)
  · by_cases hqi : q = .init
    · subst hqi
      have hacc := exec_init_of_not_busy (s := { s with port := qs }) hp
      obtain rfl := Host.Outcome.next.inj (he.symm.trans hacc)
      exact .inr ⟨hi, hp, by rw [hq]; rfl, rfl, rfl⟩
    · exact .inl (exec_request_bus (s := { s with port := qs }) hqi he ▸ hu)
  · exact .inl hu

/-! ### Reset -/

theorem Seq.reset_coherent (c : Config) : (Seq.reset c).Coherent c where
  size := filled_length c _
  cursorRange q hq := by cases hq
  ready hp := by cases hp
  busy _ := ⟨⟨_, rfl⟩, initSeq_ne_nil _, by simp [Seq.reset, initPost], Nat.zero_le _, filled_length c _,
    fun x hx => by simp [eq_of_mem_filled hx]⟩
  desync hp := by cases hp

theorem State.ofConfig_mirrorKept {c : Config} (ha : Admitted c) : (State.ofConfig c).MirrorKept :=
  (State.mirrorKept_busy rfl).2 ⟨rfl, rfl, fun _ => ⟨_, rfl⟩, Mirrors.after_initSeq (b := Bus.reset c) ha rfl rfl rfl⟩

end Sys2Proof.Machine
end

section
open Sys2Proof Sys2Proof.Machine

/-- Settles O14: a device word is a change of the controller and of nothing else. -/
theorem deviceWordsLeaveTheSequencer : Obligations.DeviceWordsLeaveTheSequencer := by
  intro s d
  refine ⟨_, exec_device d s, rfl, rfl, rfl, Bus.change_line _ _, Bus.change_watch _ _, Bus.change_inbox _ _,
    Bus.change_answers _ _, fun hv a => ?_⟩
  rw [State.obey_bus, Bus.obey, Bus.change_dev_violation _ _ hv]
  exact Device.unspecified_read _ _ _

/-- Settles O15: the clear's effect on the controller, and its clear address at reset and over a step. -/
theorem clearWordBlanksTheDisplay : Obligations.ClearWordBlanksTheDisplay := by
  refine ⟨fun s hw => ⟨{ fill := .blank, cells := [] }, ?_, fun a => rfl⟩, by decide, fun c ha => ?_, fun s t h => ?_⟩
  · have hbus := Bus.change_eq s.bus (effectOf .clearDisplay)
    rw [Bus.change_dev _ _ hw] at hbus
    rw [show Instr.clearDisplay = DevInstr.clearDisplay.toInstr from rfl, exec_device, State.obey, Bus.obey, hbus]
    rfl
  · exact ha.addrOperand_toNat 0 ha.cellCount_pos
  · exact step_clearAddr h

/-- Settles O40: a write reaches its own cell only; and the device follows the cells of the text one by one. -/
theorem writeTextLeavesOtherCells : Obligations.WriteTextLeavesOtherCells := by
  refine ⟨fun p text buf => ⟨bufWriteText_length _ _ _, fun q hq => bufRead_bufWriteText_other text buf hq⟩, ?_⟩
  intro s t p text ha hcoh hm hp hcur h ht
  rcases exec_request_cases (q := .writeText text) h with ⟨hb, -⟩ | ⟨-, -, r, -, rfl⟩ | ⟨-, -, ps, x, hst, rfl⟩
  · cases hp.symm.trans hb
  · cases hp.symm.trans ht
  · obtain ⟨-, -, q, hq, hfit, rfl, -⟩ := hst
    obtain rfl : q = p := Option.some.inj (hq.symm.trans hcur)
    obtain ⟨-, -, hmir⟩ := (State.mirrorKept_ready hp).1 hm
    exact ⟨hfit, ((hmir q hq).after_writeSeq ha text hfit).2⟩

/-- Settles O49: the four words of Init, one after the other, from a bus that starts afresh. -/
theorem initMirrorsAllButAShiftedCounter : Obligations.InitMirrorsAllButAShiftedCounter := by
  intro c b sh line ha hw hk
  rw [Bus.replay_initSeq_restart hw hk]
  obtain ⟨hw', hl', hd'⟩ := Bus.replay_initSeq (b := b.restart sh) (rs := sh) rfl rfl
  rw [Bus.restart_dev] at hd'
  refine ⟨hw', hl', by rw [hd']; rfl, by rw [hd']; rfl, fun a => by rw [hd']; rfl, by rw [hd']; rfl, fun hca => ?_,
    fun hca hne => ?_⟩
  · exact Mirrors.after_initSeq (b := b.restart sh) ha rfl rfl hca
  · have hac : ((b.restart sh).replay (initSeq sh)).dev.ac = 0 := by
      rw [hd', ← hca]
      rfl
    rw [hac]
    exact hne.symm

/-- Settles O54: Init starts checker and line afresh, a violated contract never mirrors, and no other step ends it. -/
theorem initRestoresTheMirror : Obligations.InitRestoresTheMirror :=
  ⟨fun s ha hc hi hp =>
      ⟨exec_init_mirrorKept ha hc hi hp, exec_init_mirrorKept (s := s.powerCycle) ha hc rfl hp⟩,
    fun _ hcoh hu => State.not_mirrorKept_of_violation hcoh hu.1,
    fun _ _ hu h => step_keeps_unspecified hu h⟩

/-- Settles O56: outside Busy no step changes the tracker, and within Busy none does either. -/
theorem trackerChangesOnlyWhenBusyEnds : Obligations.TrackerChangesOnlyWhenBusyEnds := by
  intro s t h hch
  have hp : s.seq.phase = .busy := by
    by_contra hp
    obtain ⟨hrs, hcur, hbuf⟩ := step_tracker_outside_busy hp h
    simp [hrs, hcur, hbuf] at hch
  refine ⟨hp, fun ht => ?_⟩
  obtain ⟨-, hrs, hcur, hbuf, -⟩ := step_within_busy hp h ht
  simp [hrs, hcur, hbuf] at hch

/-- Settles O60: the observations read parameters, cursor, buffer and last response, which stay until Busy ends. -/
theorem observationsAreAsStated : Obligations.ObservationsAreAsStated := by
  refine ⟨fun s => ⟨rfl, rfl, ?unknown, ?cell, ?past, fun _ _ => s.cellView_inside, fun _ _ => s.cellView_outside⟩,
    ?within, ?starting⟩
  case unknown => exact fun h => by rw [State.cursorView, h]; rfl
  case cell => exact fun q h hq => by rw [State.cursorView, h, viewOf_cell _ hq]
  case past => exact fun h => by rw [State.cursorView, h]; exact viewOf_end _
  case within =>
    intro s t hp h ht
    obtain ⟨hcfg, -, hcur, hbuf, hlast⟩ := step_within_busy hp h ht
    exact ⟨ht.trans hp.symm, hlast, State.cursorView_congr hcfg hcur, State.cellView_congr hcfg hbuf⟩
  case starting =>
    intro s t q hp h ht
    obtain ⟨-, hcur, hbuf⟩ := exec_request_tracker h
    have hcfg := exec_request_cfg h
    exact ⟨exec_request_last hp h ht, State.cursorView_congr hcfg hcur, State.cellView_congr hcfg hbuf⟩

/-- Settles O24: the call is the sequencer's own, and its last. -/
theorem lastIssueOkCommits : Obligations.LastIssueOkCommits := by
  intro s op p ⟨hp, ho, hl⟩ ha
  refine ⟨s.issue op p [], ?_, rfl, rfl, ?_⟩
  · rw [exec_prim, State.call_issue hp ho hl]
  · rw [State.issue_seq, ha, Seq.issue_last]
    simp [Seq.record, Seq.respond, Seq.commit]

/-- Settles O44: at reset the whole Init is pending, from a line and a checker that know nothing. -/
theorem resetMeetsTheInvariants : Obligations.ResetMeetsTheInvariants := by
  intro c
  refine ⟨Seq.reset_coherent c, ?_, rfl, Device.reset_wf c, fun ha => State.ofConfig_mirrorKept ha⟩
  show (checkTrace []).onPrims (initSeq .unknown) = .running (.known .ir) .idle
  decide
end

section
/-! SUPPORT. The set-DDRAM byte as a number, what one call does to each part of the state, whether it is the sequencer's own
or made past it, and what a request does to the bus (R52, R80, R95 to R104, R116). -/

namespace Sys2Proof.Machine

variable {s t : State} {q : Request} {p : Prim}

/-- The class bit lies above the seven bits of the address. -/
theorem setDdramByte_toNat (a : Addr) : (setDdramByte a).toNat = 0x80 + a.toNat := by
  have hor : 2 ^ 7 * 1 + a.toNat = 2 ^ 7 * 1 ||| a.toNat := Nat.two_pow_add_eq_or_of_lt a.isLt 1
  simpa [setDdramByte, Nat.mod_eq_of_lt (a.isLt.trans (by decide : 2 ^ 7 < 256))] using hor.symm

/-- A call on the transport asks it for its next answer. -/
theorem Bus.answerTo_of_onTransport (b : Bus) (hp : p.onTransport = true) : b.answerTo p = b.nextAnswer := by
  cases p with
  | wait d => cases hp
  | _ => rfl

theorem Bus.answersAfter_of_onTransport (b : Bus) (hp : p.onTransport = true) : b.answersAfter p = b.answers.tail := by
  cases p with
  | wait d => cases hp
  | _ => rfl

@[simp] theorem State.call_cfg (s : State) (p : Prim) : (s.call p).cfg = s.cfg := by
  rcases s.call_cases p with ⟨op, rest, -, -, -, he⟩ | ⟨-, he⟩ <;> simp [he]

@[simp] theorem State.call_port (s : State) (p : Prim) : (s.call p).port = s.port := by
  rcases s.call_cases p with ⟨op, rest, -, -, -, he⟩ | ⟨-, he⟩ <;> simp [he]

@[simp] theorem State.call_inbox (s : State) (p : Prim) : (s.call p).bus.inbox = s.bus.inbox := by
  rcases s.call_cases p with ⟨op, rest, -, -, -, he⟩ | ⟨-, he⟩ <;> simp [he]

@[simp] theorem State.call_answers (s : State) (p : Prim) : (s.call p).bus.answers = s.bus.answersAfter p := by
  rcases s.call_cases p with ⟨op, rest, -, -, -, he⟩ | ⟨-, he⟩ <;> simp [he]

@[simp] theorem State.call_line (s : State) (p : Prim) :
    (s.call p).bus.line = s.bus.line.onCall p (s.bus.answerTo p) := by
  rcases s.call_cases p with ⟨op, rest, -, -, -, he⟩ | ⟨-, he⟩ <;> simp [he]

/-- A transport call moves the checker by R109, or to Violation if it was made past the sequencer (U7). -/
theorem State.call_checkedAs (s : State) (hp : p.onTransport = true) : s.CheckedAs (s.call p) p := by
  rcases s.call_cases p with ⟨op, rest, h1, h2, h3, he⟩ | ⟨hno, he⟩
  · refine ⟨fun _ _ _ => ?_, fun hno => absurd ⟨h1, h2, h3⟩ (hno op rest)⟩
    rw [he, State.issue_bus, Bus.call_watch]
  · refine ⟨fun op rest h => absurd h (hno op rest), fun _ => ?_⟩
    rw [he, State.bypass_bus, Bus.stray_watch _ _ _ hp]

/-- Under a met contract the controller receives exactly what the call latches (R42). -/
theorem State.call_dev (hp : p.onTransport = true) (hw : (s.call p).bus.watch ≠ .violation) :
    (s.call p).bus.dev =
      (s.bus.latched p s.bus.nextAnswer).foldl (fun d w => d.receive w s.bus.draws) s.bus.dev := by
  rw [← Bus.answerTo_of_onTransport _ hp]
  rcases s.call_cases p with ⟨op, rest, -, -, -, he⟩ | ⟨-, he⟩
  · rw [he, State.issue_bus] at hw ⊢
    cases hk : s.bus.watch.onCall p (s.bus.answerTo p) with
    | running l g => rw [Bus.call_dev, Bus.devAfter_running hk]
    | violation => exact absurd hk hw
  · rw [he, State.bypass_bus, Bus.stray_watch _ _ _ hp] at hw
    exact absurd rfl hw

/-- A transport call that ends in Violation leaves the controller unspecified (R111). -/
theorem State.call_dev_violation (hp : p.onTransport = true) (hw : (s.call p).bus.watch = .violation) :
    (s.call p).bus.dev = s.bus.dev.unspecified s.bus.draws := by
  rcases s.call_cases p with ⟨op, rest, -, -, -, he⟩ | ⟨-, he⟩
  · rw [he, State.issue_bus] at hw ⊢
    exact Bus.devAfter_violation hw
  · rw [he, State.bypass_bus, Bus.stray_dev _ _ _ hp]

/-- A transport call that is no pulse: the line by its answer, and nothing for the controller under a met contract. -/
theorem exec_prim_of_ne_pulse (s : State) (hp : p.onTransport = true) (hne : p ≠ .pulse) :
    ∃ t, exec p.toInstr s = .next t ∧ t.cfg = s.cfg ∧ t.port = s.port ∧ t.bus.inbox = s.bus.inbox ∧
      (t.bus.watch ≠ .violation → t.bus.dev = s.bus.dev) ∧ s.CheckedAs t p ∧ t.bus.answers = s.bus.answers.tail ∧
      (s.bus.nextAnswer = .ok → t.bus.line = s.bus.line.onCall p .ok) ∧
      (s.bus.nextAnswer = .fail → t.bus.line = { rs := .unknown, bus := none }) := by
  have hline : (s.call p).bus.line = s.bus.line.onCall p s.bus.nextAnswer := by
    rw [State.call_line, Bus.answerTo_of_onTransport _ hp]
  refine ⟨s.call p, exec_prim p s, s.call_cfg p, s.call_port p, s.call_inbox p, fun hw => ?_, s.call_checkedAs hp,
    (s.call_answers p).trans (s.bus.answersAfter_of_onTransport hp), fun ha => ?_, fun ha => ?_⟩
  · rw [State.call_dev hp hw, Bus.latched_of_ne_pulse _ _ hne, List.foldl_nil]
  · rw [hline, ha]
  · rw [hline, ha]
    rfl

/-- A request leaves the bus, or is an Init and starts it afresh on the shadow. -/
theorem exec_request_bus_cases (h : exec q.toInstr s = .next t) :
    t.bus = s.bus ∨ t.bus = s.bus.restart s.seq.rs := by
  rcases exec_request_cases h with ⟨-, rfl⟩ | ⟨-, -, r, -, rfl⟩ | ⟨-, -, ps, x, -, rfl⟩
  · exact .inl rfl
  · exact .inl rfl
  · cases q with
    | init => exact .inr rfl
    | _ => exact .inl rfl

end Sys2Proof.Machine
end

section
open Sys2Proof Sys2Proof.Machine

/-- Settles O11: a cell's address fits the operand, the byte is the operand above the class bit, and R129 keeps addresses
distinct. -/
theorem cellAddressBytesAreExact : Obligations.CellAddressBytesAreExact := by
  intro c ha q hq
  have hbyte : ∀ x < c.w * c.h, (setDdramByte (addrOperand c x)).toNat = 0x80 + addrOf c x := fun x hx => by
    rw [setDdramByte_toNat, ha.addrOperand_toNat x hx]
  refine ⟨hbyte q hq, fun r hr he => ha.injective q hq r hr ?_⟩
  have hn := congrArg BitVec.toNat he
  rw [hbyte q hq, hbyte r hr] at hn
  exact Nat.add_left_cancel hn

/-- Settles O20: each of the three is a transport call that is no pulse. -/
theorem selectsAndByteChangeOnlyTheLine : Obligations.SelectsAndByteChangeOnlyTheLine := fun s b =>
  ⟨exec_prim_of_ne_pulse (p := .selIr) s rfl (by simp), exec_prim_of_ne_pulse (p := .selDr) s rfl (by simp),
    exec_prim_of_ne_pulse (p := .tx b) s rfl (by simp)⟩

/-- Settles O21, by the pulse's answer: Ok latches one word, Fail at most one. -/
theorem pulseLatchesOneWord : Obligations.PulseLatchesOneWord := by
  intro s
  have hline : (s.call .pulse).bus.line = s.bus.line.onCall .pulse s.bus.nextAnswer := s.call_line .pulse
  refine ⟨s.call .pulse, exec_prim .pulse s, s.call_cfg _, s.call_port _, s.call_inbox _, s.call_checkedAs rfl,
    s.call_answers _, fun ha => by rw [hline, ha]; rfl, fun ha => by rw [hline, ha]; rfl, ?ok, ?fail, ?violated⟩
  case ok =>
    intro hw ha
    refine ⟨s.bus.line.word.getD (Config.freeWord s.bus.draws), s.bus.draws, ?_, fun r b hl => ?_⟩
    · rw [State.call_dev rfl hw, ha]
      rfl
    · rw [hl]
      rfl
  case fail =>
    intro hw ha
    rw [State.call_dev rfl hw, ha]
    simp only [Bus.latched]
    cases Config.freeLatch s.bus.draws with
    | none => exact .inl rfl
    | some w => exact .inr ⟨w, s.bus.draws, rfl⟩
  case violated =>
    intro hw a
    rw [State.call_dev_violation rfl hw]
    exact Device.unspecified_read _ _ _

/-- Settles O36: the tracker stays, and so does the bus unless an Init starts it afresh on the shadow. -/
theorem requestsLeaveBusAndTracker : Obligations.RequestsLeaveBusAndTracker := by
  intro s t q h
  obtain ⟨hrs, hcur, hbuf⟩ := exec_request_tracker h
  refine ⟨exec_request_cfg h, hrs, hcur, hbuf, ?_, fun hq => exec_request_bus hq h, fun hl => ?_⟩
  · rcases exec_request_bus_cases h with he | he
    · rw [he]
    · rw [he]
      rfl
  · rcases exec_request_bus_cases h with he | he
    · rw [he]
    · rw [he, Bus.restart_line, ← hl]
end

section
/-! SUPPORT. An operation as a list of encoder inputs, one transfer each: the words it latches, and that the words of IR
store nothing (R79, R83 to R88, R103). -/

namespace Sys2Proof.Machine

variable {s : State} {q : Request} {c : Config} {rs : RsShadow} {b : Bus}

/-- The transfers of several encoder inputs, one after the other. -/
def transfers (sh : RsShadow) : List DevInstr → List Prim
  | [] => []
  | d :: ds => (xferInstr sh d).1 ++ transfers (xferInstr sh d).2 ds

/-- The re-address to the next row after the character at `q`, if it ends a row (R88). -/
def rewrapInstrs (c : Config) (q : Nat) : List DevInstr :=
  if endsRow c q then [.setDdramAddress (addrOperand c (q + 1))] else []

/-- What a text from position `q` on sends (R88). -/
def textInstrs (c : Config) (q : Nat) : List Byte → List DevInstr
  | [] => []
  | x :: xs => .data x :: (rewrapInstrs c q ++ textInstrs c (q + 1) xs)

theorem initSeq_eq_transfers (sh : RsShadow) :
    initSeq sh = transfers sh [.functionSet, .displayOn false false, .entryModeSet, .clearDisplay] := by
  simp [initSeq, transfers]

theorem clearSeq_eq_transfers (sh : RsShadow) : clearSeq sh = transfers sh [.clearDisplay] := by
  simp [clearSeq, transfers]

theorem cursorSeq_eq_transfers (c : Config) (sh : RsShadow) (col row : Nat) :
    cursorSeq c sh col row = transfers sh [.setDdramAddress (addrOperand c (position c col row))] := by
  simp [cursorSeq, transfers]

theorem rewrap_append_transfers (c : Config) (sh : RsShadow) (q : Nat) (ds : List DevInstr) :
    (rewrap c sh q).1 ++ transfers (rewrap c sh q).2 ds = transfers sh (rewrapInstrs c q ++ ds) := by
  unfold rewrap rewrapInstrs
  split <;> rfl

theorem writeSeq_eq_transfers (c : Config) (sh : RsShadow) (q : Nat) (text : List Byte) :
    (writeSeq c sh q text).1 = transfers sh (textInstrs c q text) := by
  induction text generalizing sh q with
  | nil => rfl
  | cons x xs ih => rw [writeSeq, ih, List.append_assoc, rewrap_append_transfers, textInstrs, transfers]

/-- An operation latches the words of its encoder inputs, in order. -/
theorem latchStream_transfers (rs : RsShadow) (bus : Option Byte) (ds : List DevInstr) :
    latchStream { rs := rs, bus := bus } (transfers rs ds) = ds.map fun d => some (encodeDevice d) := by
  induction ds generalizing rs bus with
  | nil => rfl
  | cons d ds ih =>
    rw [transfers, xferInstr, latchStream_xfer, xfer_shadow, ih, List.map_cons, encodeDevice]

/-- The encoder inputs an operation sends in a geometry (R83 to R88). -/
inductive OperationInstr (c : Config) : DevInstr → Prop
  | data (x : Byte) : OperationInstr c (.data x)
  | functionSet : OperationInstr c .functionSet
  | displayOn : OperationInstr c (.displayOn false false)
  | entryModeSet : OperationInstr c .entryModeSet
  | clearDisplay : OperationInstr c .clearDisplay
  | address {x : Nat} (h : x < cellCount c) : OperationInstr c (.setDdramAddress (addrOperand c x))

/-- A row that ends is not the last, so the cell addressed after it is one of the geometry. -/
theorem OperationInstr.of_mem_rewrapInstrs {q : Nat} {d : DevInstr} (h : d ∈ rewrapInstrs c q) : OperationInstr c d := by
  cases hr : endsRow c q with
  | true =>
    have hlt : q + 1 < cellCount c := by
      simp only [endsRow, Bool.and_eq_true, decide_eq_true_eq] at hr
      exact hr.2
    simp only [rewrapInstrs, hr, if_true, List.mem_singleton] at h
    exact h ▸ .address hlt
  | false => simp [rewrapInstrs, hr] at h

theorem OperationInstr.of_mem_textInstrs {q : Nat} {text : List Byte} {d : DevInstr} (h : d ∈ textInstrs c q text) :
    OperationInstr c d := by
  induction text generalizing q with
  | nil => cases h
  | cons x xs ih =>
    rcases List.mem_cons.1 h with rfl | h
    · exact .data x
    · rcases List.mem_append.1 h with h | h
      · exact .of_mem_rewrapInstrs h
      · exact ih h

/-- A started operation sends such inputs only, from the shadow. -/
theorem Starts.sends_operationInstrs {ps : List Prim} {x : Post} (hst : Starts s q ps x) :
    ∃ ds, ps = transfers s.seq.rs ds ∧ ∀ d ∈ ds, OperationInstr s.cfg d := by
  cases q with
  | init =>
    obtain ⟨rfl, -⟩ := hst
    refine ⟨_, initSeq_eq_transfers _, ?_⟩
    simp [OperationInstr.functionSet, OperationInstr.displayOn, OperationInstr.entryModeSet, OperationInstr.clearDisplay]
  | clear =>
    obtain ⟨-, rfl, -⟩ := hst
    exact ⟨_, clearSeq_eq_transfers _, by simp [OperationInstr.clearDisplay]⟩
  | setCursor col row =>
    obtain ⟨-, hcol, hrow, rfl, -⟩ := hst
    exact ⟨_, cursorSeq_eq_transfers _ _ _ _, by simp [OperationInstr.address (position_lt hcol hrow)]⟩
  | writeText text =>
    obtain ⟨-, -, p, -, -, rfl, -⟩ := hst
    exact ⟨_, writeSeq_eq_transfers _ _ _ _, fun d => .of_mem_textInstrs⟩

/-- Words of IR are no data words, so the device stores nothing. -/
theorem Bus.storesAt_transfers_ir {ds : List DevInstr} (hl : b.line.rs = rs) (hw : b.watch = .running rs .idle)
    (hir : ∀ d ∈ ds, (enc d).reg = .ir) : b.storesAt (transfers rs ds) = [] := by
  induction ds generalizing rs b with
  | nil => rfl
  | cons d ds ih =>
    obtain ⟨hw', hl', -, hst⟩ := Bus.replay_xferInstr d hl hw
    rw [transfers, Bus.storesAt_append, hst, xferInstr_shadow, ih hl' hw' fun d' hd' => hir d' (List.mem_cons_of_mem _ hd')]
    simp [hir d]

/-- An Init stores nothing, also where the shadow is unknown and the line is not. -/
theorem Bus.storesAt_initSeq {line : RsShadow} (hw : b.watch = .running line .idle)
    (hk : rs ≠ .unknown → line = rs ∧ b.line.rs = rs) : b.storesAt (initSeq rs) = [] := by
  have agree : ∀ b' : Bus, b'.line.rs = rs → b'.watch = .running rs .idle → b'.storesAt (initSeq rs) = [] := by
    intro b' hl' hw'
    rw [initSeq_eq_transfers]
    exact Bus.storesAt_transfers_ir hl' hw' (by simp [enc])
  cases rs with
  | unknown =>
    obtain ⟨ps, hps⟩ : ∃ ps, initSeq .unknown = .selIr :: ps := ⟨_, rfl⟩
    have hsel : ∀ b' : Bus, b'.storesAt (.selIr :: ps) = (b'.call .selIr .ok).storesAt ps := fun _ => by
      simp [Bus.storesAt]
    rw [hps, hsel, Bus.call_selIr_restart (rs := .unknown) hw, ← hsel, ← hps]
    exact agree _ rfl rfl
  | known r =>
    obtain ⟨rfl, hl⟩ := hk (by simp)
    exact agree b hl hw

/-- From a Ready state that mirrors, words of IR store nothing. -/
theorem State.MirrorKept.storesAt_transfers_ir {ds : List DevInstr} (hm : s.MirrorKept) (hcoh : s.seq.Coherent s.cfg)
    (hp : s.seq.phase = .ready) (hir : ∀ d ∈ ds, (enc d).reg = .ir) : s.bus.storesAt (transfers s.seq.rs ds) = [] := by
  obtain ⟨_, -, hmir⟩ := hm.mirrors hcoh hp
  exact Bus.storesAt_transfers_ir hmir.line hmir.contract hir

/-- Nor does an Init, wherever it is taken. -/
theorem State.MirrorKept.storesAt_initSeq (hm : s.MirrorKept) (hcoh : s.seq.Coherent s.cfg) (hp : s.seq.phase ≠ .busy) :
    s.bus.storesAt (initSeq s.seq.rs) = [] := by
  cases hph : s.seq.phase with
  | busy => exact absurd hph hp
  | ready =>
    obtain ⟨_, -, hmir⟩ := hm.mirrors hcoh hph
    exact Bus.storesAt_initSeq hmir.contract fun _ => ⟨rfl, hmir.line⟩
  | desync =>
    obtain ⟨-, -, hw⟩ := (State.mirrorKept_desync hph).1 hm
    exact Bus.storesAt_initSeq hw fun hk => absurd (hcoh.desync hph).shadow hk

/-- Where a started operation stores from a state that mirrors: at addresses of cells (R37). -/
theorem Starts.storesAt_cells {ps : List Prim} {x : Post} (hst : Starts s q ps x) (hp : s.seq.phase ≠ .busy)
    (ha : Admitted s.cfg) (hcoh : s.seq.Coherent s.cfg) (hm : s.MirrorKept) :
    ∀ a ∈ s.bus.storesAt ps, ∃ y < cellCount s.cfg, a.toNat = addrOf s.cfg y := by
  cases q with
  | init =>
    obtain ⟨rfl, -⟩ := hst
    simp [hm.storesAt_initSeq hcoh hp]
  | clear =>
    obtain ⟨hr, rfl, -⟩ := hst
    rw [clearSeq_eq_transfers, hm.storesAt_transfers_ir hcoh hr (by simp [enc])]
    simp
  | setCursor col row =>
    obtain ⟨hr, -, -, rfl, -⟩ := hst
    rw [cursorSeq_eq_transfers, hm.storesAt_transfers_ir hcoh hr (by simp [enc])]
    simp
  | writeText text =>
    obtain ⟨hr, -, p, hcur, hfit, rfl, -⟩ := hst
    obtain ⟨-, -, hmir⟩ := (State.mirrorKept_ready hr).1 hm
    have hcells := ((hmir p hcur).after_writeSeq ha text hfit).2
    intro a hmem
    have hn := List.mem_map_of_mem (f := BitVec.toNat) hmem
    rw [hcells, List.mem_map] at hn
    obtain ⟨i, hi, he⟩ := hn
    have hlt := List.mem_range.1 hi
    exact ⟨p + i, by omega, he.symm⟩

/-- A request taken outside Busy that leads to Busy started its operation. -/
theorem exec_request_starts {t : State} (hp : s.seq.phase ≠ .busy) (h : exec q.toInstr s = .next t)
    (ht : t.seq.phase = .busy) : ∃ x, Starts s q t.seq.pend x := by
  rcases exec_request_cases h with ⟨hb, -⟩ | ⟨-, -, r, -, rfl⟩ | ⟨-, -, ps, x, hst, rfl⟩
  · exact absurd hb hp
  · exact absurd ht hp
  · rw [State.opened_seq]
    exact ⟨x, hst⟩

end Sys2Proof.Machine
end

section
open Sys2Proof Sys2Proof.Machine

/-- Settles O41: a started operation is a list of transfers, and each latches the word of its own encoder input; the device
stores at the cells of a text, and otherwise nothing. -/
theorem operationsLatchOnlyKnownWords : Obligations.OperationsLatchOnlyKnownWords := by
  intro s t q hp h ht
  obtain ⟨x, hst⟩ := exec_request_starts hp h ht
  refine ⟨hst.storesAt_cells hp, fun w hw => ?_⟩
  obtain ⟨ds, hps, hds⟩ := hst.sends_operationInstrs
  rw [hps, latchStream_transfers, List.mem_map] at hw
  obtain ⟨d, hd, rfl⟩ := hw
  refine ⟨encodeDevice d, rfl, ?_⟩
  cases hds d hd with
  | data b => exact .inl ⟨b, rfl⟩
  | functionSet => exact .inr (.inl (by decide))
  | displayOn => exact .inr (.inr (.inl (by decide)))
  | entryModeSet => exact .inr (.inr (.inr (.inl (by decide))))
  | clearDisplay => exact .inr (.inr (.inr (.inr (.inl (by decide)))))
  | address hlt => exact .inr (.inr (.inr (.inr (.inr ⟨_, hlt, rfl⟩))))
end

section
/-! SUPPORT. Encoder and decoder of each column of the opcode table undo each other on canonical forms, and which codes they
refuse (R48, R49, R54 to R57). -/

namespace Sys2Proof

open Sys2Proof.Machine

variable {w : DevWord} {r : DevRow} {d : DevInstr}

/-! ### The encoder by column -/

theorem encode_device (d : DevInstr) : encode d.toInstr = .dev (encodeDevice d) := by
  cases d with
  | displayOn cursor blink => cases cursor <;> cases blink <;> rfl
  | _ => rfl

theorem encode_request (q : Request) : encode q.toInstr = .req (encodeRequest q) := by
  cases q <;> rfl

theorem encode_prim (p : Prim) : encode p.toInstr = .prim (encodePrim p) := by
  cases p with
  | wait d => cases d <;> rfl
  | _ => rfl

/-! ### Decoding the encoder's form -/

theorem decode_prim_eq_ok {w : CallWord} {i : Instr} :
    decode (.prim w) = .ok i ↔ ∃ p, decodePrim w = .ok p ∧ p.toInstr = i := by
  cases hp : decodePrim w with
  | error e => simp [decode, hp, Except.map]
  | ok p => simp [decode, hp, Except.map]

theorem decodeRequest_encodeRequest (q : Request) : decodeRequest (encodeRequest q) = q := by
  cases q <;> rfl

theorem decodePrim_encodePrim (p : Prim) : decodePrim (encodePrim p) = .ok p := by
  cases p with
  | tx b =>
    have hcode : (encodePrim (.tx b)).extractLsb' 8 3 = 0b010 := BitVec.extractLsb'_append_eq_left
    have hoperand : (encodePrim (.tx b)).extractLsb' 0 8 = b := BitVec.extractLsb'_append_eq_right
    simp [decodePrim, hcode, hoperand]
  | wait d => cases d <;> rfl
  | _ => rfl

/-! ### Device words: what is decoded, and the don't-care bits -/

/-- A word is decoded by RS, by the address bit, or by a row of the table of constants. -/
theorem decodeDevice_cases (h : decodeDevice w = some d) :
    (w.getLsbD 8 = true ∧ d = .data (w.extractLsb' 0 8)) ∨
    (w.getLsbD 8 = false ∧ w.getLsbD 7 = true ∧ d = .setDdramAddress (w.extractLsb' 0 7)) ∨
    ∃ r ∈ devRows, r.fits w = true ∧ r.instr = d := by
  unfold decodeDevice at h
  split at h
  next h8 => exact .inl ⟨h8, (Option.some.inj h).symm⟩
  next h8 =>
    split at h
    next h7 => exact .inr (.inl ⟨Bool.eq_false_iff.2 h8, h7, (Option.some.inj h).symm⟩)
    next =>
      obtain ⟨r, hr, hd⟩ := Option.map_eq_some_iff.1 h
      exact .inr (.inr ⟨r, List.mem_of_find?_eq_some hr, List.find?_some hr, hd⟩)

/-- A word that fits a row agrees with it in every bit that counts. -/
theorem DevRow.getLsbD_of_fits {i : Nat} (h : r.fits w = true) (hm : r.mask.getLsbD i = true) :
    w.getLsbD i = r.value.getLsbD i := by
  rw [← eq_of_beq h, BitVec.getLsbD_and, hm, Bool.and_true]

/-- The bits a row's mask clears are the don't-care bits of every word that fits it. -/
theorem devDontCare_of_fits (hr : r ∈ devRows) (h : r.fits w = true) : devDontCare w = ~~~r.mask := by
  simp only [devRows, List.mem_cons, List.not_mem_nil, or_false] at hr
  rcases hr with rfl | rfl | rfl | rfl | rfl | rfl | rfl | rfl | rfl | rfl
  all_goals simp +decide only [devDontCare, DevRow.getLsbD_of_fits h, if_true, if_false]

/-- Without don't-care bits a word is the value of the row it fits. -/
theorem eq_value_of_fits (hr : r ∈ devRows) (h : r.fits w = true) (hw : w &&& devDontCare w = 0) : w = r.value := by
  rw [devDontCare_of_fits hr h] at hw
  calc
    w = w &&& r.mask ||| w &&& ~~~r.mask := by
      rw [← BitVec.and_or_distrib_left, BitVec.or_not_self, BitVec.and_allOnes]
    _ = r.value := by rw [hw, eq_of_beq h]; exact BitVec.or_zero

theorem encodeDevice_of_mem_devRows (hr : r ∈ devRows) : encodeDevice r.instr = r.value :=
  (by decide : ∀ r ∈ devRows, encodeDevice r.instr = r.value) r hr

theorem getLsbD_eq_true_iff {k : Nat} {x : BitVec k} {i : Nat} : x.getLsbD i = true ↔ x.toNat / 2 ^ i % 2 = 1 := by
  rw [← BitVec.testBit_toNat, Nat.testBit_eq_decide_div_mod_eq, decide_eq_true_eq]

theorem getLsbD_eq_false_iff {k : Nat} {x : BitVec k} {i : Nat} : x.getLsbD i = false ↔ x.toNat / 2 ^ i % 2 = 0 := by
  rw [← Bool.not_eq_true, getLsbD_eq_true_iff]
  exact Nat.mod_two_ne_one

theorem deviceWord_ir_toNat (b : Byte) : (deviceWord .ir b).toNat = b.toNat :=
  (BitVec.toNat_append 0#1 b).trans (Nat.zero_or _)

theorem deviceWord_dr_toNat (b : Byte) : (deviceWord .dr b).toNat = 0x100 + b.toNat :=
  (BitVec.toNat_append 1#1 b).trans (Nat.two_pow_add_eq_or_of_lt b.isLt 1).symm

theorem encodeDevice_data_extract (h8 : w.getLsbD 8 = true) : encodeDevice (.data (w.extractLsb' 0 8)) = w := by
  have h := getLsbD_eq_true_iff.1 h8
  apply BitVec.eq_of_toNat_eq
  rw [encodeDevice, enc, deviceWord_dr_toNat, BitVec.extractLsb'_toNat, Nat.shiftRight_zero]
  omega

theorem encodeDevice_address_extract (h8 : w.getLsbD 8 = false) (h7 : w.getLsbD 7 = true) :
    encodeDevice (.setDdramAddress (w.extractLsb' 0 7)) = w := by
  have h8 := getLsbD_eq_false_iff.1 h8
  have h7 := getLsbD_eq_true_iff.1 h7
  apply BitVec.eq_of_toNat_eq
  rw [encodeDevice, enc, deviceWord_ir_toNat, setDdramByte_toNat, BitVec.extractLsb'_toNat, Nat.shiftRight_zero]
  omega

/-- Encoding gives back a device word without don't-care bits. -/
theorem encodeDevice_of_decodeDevice (hw : w &&& devDontCare w = 0) (h : decodeDevice w = some d) :
    encodeDevice d = w := by
  rcases decodeDevice_cases h with ⟨h8, rfl⟩ | ⟨h8, h7, rfl⟩ | ⟨r, hr, hfits, rfl⟩
  · exact encodeDevice_data_extract h8
  · exact encodeDevice_address_extract h8 h7
  · rw [encodeDevice_of_mem_devRows hr, ← eq_value_of_fits hr hfits hw]

/-! ### Request records, call words and responses -/

theorem tag_cases : ∀ t : BitVec 2, t = 0b00 ∨ t = 0b01 ∨ t = 0b10 ∨ t = 0b11 := by decide

/-- Encoding gives back a record whose unread fields are empty. -/
theorem encodeRequest_decodeRequest {r : ReqRecord} (h : (Encoded.req r).unreadFieldsEmpty = true) :
    encodeRequest (decodeRequest r) = r := by
  obtain ⟨tag, col, row, text⟩ := r
  rcases tag_cases tag with rfl | rfl | rfl | rfl <;>
    simp [Encoded.unreadFieldsEmpty] at h <;> simp [h, decodeRequest, encodeRequest, encodeTag]

/-- A call word is its code and its operand (R55). -/
theorem callWord_eq_append (w : CallWord) : w.extractLsb' 8 3 ++ w.extractLsb' 0 8 = w := by
  rw [BitVec.extractLsb'_append_extractLsb'_eq_extractLsb' (by rfl)]
  exact BitVec.extractLsb'_eq_self

/-- A primitive without operand is decoded from operand 0 only. -/
theorem encodePrim_of_plainCall {code : BitVec 3} {x : Byte} {p p' : Prim} (h : plainCall x p = .ok p')
    (hp : encodePrim p = code ++ (0 : Byte)) : encodePrim p' = code ++ x := by
  unfold plainCall at h
  split at h
  next hx =>
    cases h
    rw [hp, hx]
  next => cases h

/-- Encoding gives back a call word. -/
theorem encodePrim_of_decodePrim {w : CallWord} {p : Prim} (h : decodePrim w = .ok p) : encodePrim p = w := by
  rw [← callWord_eq_append w]
  unfold decodePrim at h
  generalize w.extractLsb' 8 3 = code at h ⊢
  dsimp only at h
  split_ifs at h <;> subst code
  · exact encodePrim_of_plainCall h rfl
  · exact encodePrim_of_plainCall h rfl
  · cases h
    rfl
  · exact encodePrim_of_plainCall h rfl
  · exact encodePrim_of_plainCall h rfl
  · exact encodePrim_of_plainCall h rfl

/-- The code is what is above the operand's eight bits. -/
theorem callCode_toNat (w : CallWord) : (w.extractLsb' 8 3).toNat = w.toNat / 0x100 := by
  rw [BitVec.extractLsb'_toNat, Nat.shiftRight_eq_div_pow]
  omega

theorem decodePrim_reserved {w : CallWord} (h : 0x600 ≤ w.toNat) : decodePrim w = .error .reservedPrimCode := by
  have hcode : 6 ≤ (w.extractLsb' 8 3).toNat := by
    rw [callCode_toNat]
    omega
  have hreserved : ∀ code : BitVec 3, 6 ≤ code.toNat → code = 0b110 ∨ code = 0b111 := by decide
  unfold decodePrim
  rcases hreserved _ hcode with he | he <;> rw [he] <;> rfl

theorem decodeTag_encodeTag (t : OpTag) : decodeTag (encodeTag t) = t := by
  cases t <;> rfl

theorem decodeResponse_encodeResponse (r : Response) :
    decodeResponse (encodeResponse r).1 (encodeResponse r).2 = .ok r := by
  cases r with
  | done t => simp [encodeResponse, decodeResponse, decodeTag_encodeTag]
  | err t k => cases k <;> simp [encodeResponse, encodeErrKind, decodeResponse, decodeTag_encodeTag]

theorem decodeResponse_reserved (t : BitVec 2) {k : BitVec 3} (h : 5 ≤ k.toNat) :
    decodeResponse t k = .error .reservedStatus := by
  have hreserved : ∀ k : BitVec 3, 5 ≤ k.toNat → k = 5 ∨ k = 6 ∨ k = 7 := by decide
  rcases hreserved k h with rfl | rfl | rfl <;> rfl

end Sys2Proof
end

section
open Sys2Proof Sys2Proof.Machine

/-- Settles O3, by the instruction's column of the opcode table. -/
theorem decodeOfEncodeIsIdentity : Obligations.DecodeOfEncodeIsIdentity := by
  intro i
  rcases instr_by_column i with ⟨d, rfl⟩ | ⟨q, rfl⟩ | ⟨p, rfl⟩
  · rw [encode_device]
    exact decode_dev_eq_ok.2 ⟨d, decodeDevice_encodeDevice d, rfl⟩
  · rw [encode_request, decode_req, decodeRequest_encodeRequest]
  · rw [encode_prim]
    exact decode_prim_of_decodePrim (decodePrim_encodePrim p)

/-- Settles O4, by the form's column: each column's decoder loses only what a canonical form holds at 0. -/
theorem encodeOfDecodeIsIdentity : Obligations.EncodeOfDecodeIsIdentity := by
  intro e i hwf h
  obtain ⟨hbits, hfields⟩ : e.dontCareBitsZero = true ∧ e.unreadFieldsEmpty = true := Bool.and_eq_true_iff.1 hwf
  cases e with
  | dev w =>
    obtain ⟨d, hd, rfl⟩ := decode_dev_eq_ok.1 h
    rw [encode_device, encodeDevice_of_decodeDevice (eq_of_beq hbits) hd]
  | req r =>
    cases h
    rw [encode_request, encodeRequest_decodeRequest hfields]
  | prim w =>
    obtain ⟨p, hp, rfl⟩ := decode_prim_eq_ok.1 h
    rw [encode_prim, encodePrim_of_decodePrim hp]

/-- Settles O5: a code or status past the last row is refused, and a response's code and status name it. -/
theorem reservedCodesRefused : Obligations.ReservedCodesRefused :=
  ⟨fun _ => decodePrim_reserved, fun t _ => decodeResponse_reserved t, decodeResponse_encodeResponse⟩

/-- Settles O6, by evaluating the decoder on each of the ten. -/
theorem specWordsDecode : Obligations.SpecWordsDecode := by
  unfold Obligations.SpecWordsDecode
  decide
end

section
/-! SUPPORT. Device words seen from the controller: a word obeyed under a met contract, the classes of configuration words, and
the counter where a line ends (R34, R49, R50, R105). -/

namespace Sys2Proof.Machine

variable {s : State} {d : Device} {w : DevWord} {n : Nat}

/-- Under a met contract a device word has its effect on the controller, and nothing else changes but the count of draws. -/
theorem exec_device_of_met (i : DevInstr) (hw : s.bus.watch ≠ .violation) :
    exec i.toInstr s = .next { s with bus := { s.bus with
      dev := effectOf i s.bus.draws s.bus.dev, draws := s.bus.draws + 1 } } := by
  rw [exec_device, State.obey, Bus.obey, Bus.change_eq, Bus.change_dev _ _ hw]

/-! ### Words of the configuration classes -/

/-- Of the IR words below 0x40: those of the function-set, display-control and entry-mode classes, and of the shift class with
S/C = 1 (R49, R50). -/
def isConfiguration (w : DevWord) : Bool := w.getLsbD 5 || w.getLsbD 3 || (!w.getLsbD 4 && w.getLsbD 2)

/-- A configuration word that is a row of the table acts by its class and fields, as one that is no row. -/
theorem effectOf_eq_unlisted {r : DevRow} (hr : r ∈ devRows) (h : r.fits w = true) (hc : isConfiguration w = true) :
    effectOf r.instr n d = d.unlisted w n := by
  simp only [devRows, List.mem_cons, List.not_mem_nil, or_false] at hr
  rcases hr with rfl | rfl | rfl | rfl | rfl | rfl | rfl | rfl | rfl | rfl
  -- The rows of clear, home and the cursor shifts are no configuration words.
  all_goals simp +decide only [isConfiguration, DevRow.getLsbD_of_fits h] at hc
  all_goals
    simp +decide only [Device.unlisted, DevRow.getLsbD_of_fits h, if_true, if_false]
    rfl

theorem Device.receive_of_isConfiguration (hlt : w.toNat < 0x40) (hc : isConfiguration w = true) :
    d.receive w n = d.unlisted w n := by
  unfold Device.receive
  split
  next i hi =>
    rcases decodeDevice_cases hi with ⟨h8, -⟩ | ⟨-, h7, -⟩ | ⟨r, hr, hfits, rfl⟩
    · have := getLsbD_eq_true_iff.1 h8
      omega
    · have := getLsbD_eq_true_iff.1 h7
      omega
    · exact effectOf_eq_unlisted hr hfits hc
  next => rfl

theorem Device.receive_functionSet_class (hge : 0x20 ≤ w.toNat) (hlt : w.toNat < 0x40) :
    d.receive w n = d.setFunction (w.getLsbD 4) (w.getLsbD 3) (w.getLsbD 2) := by
  have h6 : w.getLsbD 6 = false := getLsbD_eq_false_iff.2 (by omega)
  have h5 : w.getLsbD 5 = true := getLsbD_eq_true_iff.2 (by omega)
  rw [Device.receive_of_isConfiguration hlt (by rw [isConfiguration, h5]; rfl), Device.unlisted, h6, h5]
  rfl

theorem Device.receive_displayShift_class (hge : 0x18 ≤ w.toNat) (hlt : w.toNat < 0x20) :
    d.receive w n = d.shiftDisplay (w.getLsbD 2) := by
  have h6 : w.getLsbD 6 = false := getLsbD_eq_false_iff.2 (by omega)
  have h5 : w.getLsbD 5 = false := getLsbD_eq_false_iff.2 (by omega)
  have h4 : w.getLsbD 4 = true := getLsbD_eq_true_iff.2 (by omega)
  have h3 : w.getLsbD 3 = true := getLsbD_eq_true_iff.2 (by omega)
  rw [Device.receive_of_isConfiguration (by omega) (by rw [isConfiguration, h5, h3]; rfl), Device.unlisted, h6, h5, h4]
  rfl

theorem Device.receive_displayControl_class (hge : 0x08 ≤ w.toNat) (hlt : w.toNat < 0x10) :
    d.receive w n = d.setDisplay (w.getLsbD 2) (w.getLsbD 1) (w.getLsbD 0) := by
  have h6 : w.getLsbD 6 = false := getLsbD_eq_false_iff.2 (by omega)
  have h5 : w.getLsbD 5 = false := getLsbD_eq_false_iff.2 (by omega)
  have h4 : w.getLsbD 4 = false := getLsbD_eq_false_iff.2 (by omega)
  have h3 : w.getLsbD 3 = true := getLsbD_eq_true_iff.2 (by omega)
  rw [Device.receive_of_isConfiguration (by omega) (by rw [isConfiguration, h5, h3]; rfl), Device.unlisted, h6, h5, h4,
    h3]
  rfl

theorem Device.receive_entryMode_class (hge : 0x04 ≤ w.toNat) (hlt : w.toNat < 0x08) :
    d.receive w n = d.setEntryMode (w.getLsbD 1) (w.getLsbD 0) := by
  have h6 : w.getLsbD 6 = false := getLsbD_eq_false_iff.2 (by omega)
  have h5 : w.getLsbD 5 = false := getLsbD_eq_false_iff.2 (by omega)
  have h4 : w.getLsbD 4 = false := getLsbD_eq_false_iff.2 (by omega)
  have h3 : w.getLsbD 3 = false := getLsbD_eq_false_iff.2 (by omega)
  have h2 : w.getLsbD 2 = true := getLsbD_eq_true_iff.2 (by omega)
  rw [Device.receive_of_isConfiguration (by omega) (by rw [isConfiguration, h5, h4, h3, h2]; rfl), Device.unlisted, h6,
    h5, h4, h3, h2]
  rfl

/-! ### The counter at the end of a line (R34) -/

theorem nextAddr_first_line_end (n : Nat) : nextAddr true n 0x27 = 0x40 := rfl

theorem nextAddr_second_line_end (n : Nat) : nextAddr true n 0x67 = 0x00 := rfl

end Sys2Proof.Machine
end

section
open Sys2Proof Sys2Proof.Machine

/-- Settles O18: each class of words by its highest bits, and each of the six words by its effect on the controller. -/
theorem configurationWordsSetTheirFields : Obligations.ConfigurationWordsSetTheirFields :=
  ⟨fun _ _ _ => ⟨Device.receive_functionSet_class, Device.receive_displayShift_class,
      Device.receive_displayControl_class, Device.receive_entryMode_class⟩,
    fun _ hw => ⟨exec_device_of_met (.displayOn false false) hw, exec_device_of_met (.displayOn false true) hw,
      exec_device_of_met (.displayOn true false) hw, exec_device_of_met (.displayOn true true) hw,
      exec_device_of_met .entryModeSet hw, exec_device_of_met .functionSet hw⟩⟩

/-- Settles O19: each word by its effect on the controller, and the counter's step on or back where it is stated. -/
theorem cursorShiftsMoveCounterHomeAlsoDisplayShift : Obligations.CursorShiftsMoveCounterHomeAlsoDisplayShift := by
  intro s hw put ac
  refine ⟨⟨_, _, exec_device_of_met .returnHome hw⟩, ⟨_, exec_device_of_met .cursorShiftRight hw, ?lineEnds, ?right⟩,
    ⟨_, exec_device_of_met .cursorShiftLeft hw, ?left⟩⟩
  case lineEnds =>
    intro htwo
    rw [htwo]
    refine ⟨fun hac => ?_, fun hac => ?_⟩
    · exact (congrArg (nextAddr true _) hac).trans (nextAddr_first_line_end _)
    · exact (congrArg (nextAddr true _) hac).trans (nextAddr_second_line_end _)
  case right => exact nextAddr_plain _ _ _
  case left => exact prevAddr_plain _ _ _
end

section
/-! SUPPORT. The delay class of a word as R73 lists it, and what a data word does to the controller's counter and display shift
(R34, R50, R73, R105). -/

namespace Sys2Proof.Machine

/-! ### The delay class -/

/-- The return-home row with its don't-care bit (R49): bits 7 to 1 are those of 0x02. -/
theorem highBits_eq_returnHome_iff (b : Byte) : b.extractLsb' 1 7 = 0b0000001 ↔ b = 0x02 ∨ b = 0x03 := by
  have hhigh : (b.extractLsb' 1 7).toNat = b.toNat / 2 := by
    rw [BitVec.extractLsb'_toNat, Nat.shiftRight_eq_div_pow]
    omega
  rw [← BitVec.toNat_inj, ← BitVec.toNat_inj, ← BitVec.toNat_inj, hhigh]
  change b.toNat / 2 = 1 ↔ b.toNat = 2 ∨ b.toNat = 3
  omega

theorem delayOf_ir_eq_long_iff (b : Byte) : delayOf .ir b = .long ↔ b = 0x01 ∨ b = 0x02 ∨ b = 0x03 := by
  rw [← highBits_eq_returnHome_iff, delayOf]
  exact Ne.ite_eq_left_iff (by decide)

theorem enc_delayOf (i : DevInstr) : (enc i).d = delayOf (enc i).reg (enc i).byte := by
  cases i with
  | displayOn cursor blink => cases cursor <;> cases blink <;> rfl
  | setDdramAddress a => exact (delayOf_setDdram a).symm
  | _ => rfl

/-! ### The data word -/

variable {d : Device} {n : Nat}

theorem nextAddr_line_ends {two : Bool} {a : Addr} (htwo : two = true) :
    (a = 0x27 → nextAddr two n a = 0x40) ∧ (a = 0x67 → nextAddr two n a = 0x00) := by
  subst htwo
  exact ⟨fun ha => ha ▸ nextAddr_first_line_end n, fun ha => ha ▸ nextAddr_second_line_end n⟩

theorem shiftBy_one_cell (right : Bool) (k : Int) : shiftBy right k = k + 1 ∨ shiftBy right k = k - 1 := by
  cases right with
  | true => exact .inl rfl
  | false => exact .inr rfl

theorem Device.advance_of_increment (h : d.increment = true) : d.advance n = nextAddr d.twoLines n d.ac := if_pos h

theorem Device.advance_of_decrement (h : d.increment = false) : d.advance n = prevAddr d.twoLines n d.ac := by
  rw [Device.advance, h]
  rfl

theorem Device.shiftAfterWrite_of_still (h : d.shiftOnWrite = false) : d.shiftAfterWrite n = d.displayShift := by
  rw [Device.shiftAfterWrite, h]
  rfl

theorem Device.shiftAfterWrite_of_shift (h : d.shiftOnWrite = true) :
    d.shiftAfterWrite n = d.displayShift + 1 ∨ d.shiftAfterWrite n = d.displayShift - 1 := by
  rw [Device.shiftAfterWrite, if_pos h]
  exact shiftBy_one_cell _ _

end Sys2Proof.Machine
end

section
open Sys2Proof Sys2Proof.Machine

/-- Settles O17: the word stores, and its counter and shift are those of `Device.advance` and `Device.shiftAfterWrite`, read
off by I/D, by the number of lines and by S. -/
theorem dataWordStoresAndSteps : Obligations.DataWordStoresAndSteps := by
  intro s b hw
  refine ⟨_, _, _, exec_device_of_met (.data b) hw, Device.shiftAfterWrite_of_still, Device.shiftAfterWrite_of_shift,
    Ddram.read_write_same _ _ _, Ddram.read_write_other _ _ _, ?forwards, ?backwards⟩
  case forwards =>
    intro hinc
    rw [Device.advance_of_increment hinc]
    exact ⟨nextAddr_line_ends, nextAddr_plain _ _ _⟩
  case backwards =>
    intro hdec
    rw [Device.advance_of_decrement hdec]
    exact prevAddr_plain _ _ _

/-- Settles O1: the words without an operand by their row of `enc`, the address word by its byte as a number. -/
theorem encoderGivesTheTableBytes : Obligations.EncoderGivesTheTableBytes :=
  ⟨rfl, rfl, rfl, rfl, rfl, rfl, rfl, rfl, rfl, rfl, fun a => ⟨rfl, setDdramByte_toNat a, rfl⟩, fun _ => rfl⟩

/-- Settles O2: the Long bytes of IR, no Long byte of DR, and the encoder's class input by input. -/
theorem delayClassMatchesWord : Obligations.DelayClassMatchesWord :=
  ⟨delayOf_ir_eq_long_iff, fun _ => rfl, enc_delayOf⟩

/-- Settles O16: the word's effect on the controller under a met contract. -/
theorem setAddressWordSetsTheCounter : Obligations.SetAddressWordSetsTheCounter :=
  fun _ a hw => exec_device_of_met (.setDdramAddress a) hw
end

section
/-! SUPPORT. Placing a form where the fetch looks, what an issue step does to S, and that within Busy every step leads on
(R77, R78, R81, R82). -/

namespace Sys2Proof.Machine

variable {s t : State} {q : Request} {p : Prim}

/-! ### Placing -/

theorem State.placeRequest_port (s : State) (q : Request) : ∃ qs, (s.placeRequest q).port = q :: qs := ⟨_, rfl⟩

theorem State.placeRequest_not_busy (s : State) (q : Request) : (s.placeRequest q).seq.phase ≠ .busy := by
  by_cases hp : s.seq.phase = .busy
  · simp [State.placeRequest, State.drained, hp]
  · simpa only [State.placeRequest, State.drained, if_neg hp] using hp

theorem State.placeWord_fetch (s : State) {w : DevWord} {d : DevInstr} (hd : decodeDevice w = some d) :
    ∃ s1, (s.placeWord w).fetch = .runs d.toInstr s1 :=
  ⟨_, (State.fetch_of_inbox_cons rfl).trans (State.fetchDevice_of_listed _ hd)⟩

theorem State.placeRequest_fetch (s : State) (q : Request) : ∃ s1, (s.placeRequest q).fetch = .runs q.toInstr s1 :=
  have ⟨_, hq⟩ := s.placeRequest_port q
  ⟨_, (State.fetch_of_not_busy rfl (s.placeRequest_not_busy q)).trans (State.fetchRequest_of_port_cons hq)⟩

theorem State.placePrim_fetch (s : State) (p : Prim) : (s.placePrim p).fetch = .runs p.toInstr (s.placePrim p) :=
  (State.fetch_of_busy rfl rfl).trans (State.fetchPrim_of_issues ⟨rfl, rfl, rfl⟩)

/-! ### The issue step -/

/-- The head of the pending list, run in Busy, is the sequencer's own call. -/
theorem exec_prim_of_issues {op : OpTag} {rest : List Prim} (h : s.Issues op p rest) :
    exec p.toInstr s = .next (s.issue op p rest) := by
  obtain ⟨hp, ho, hl⟩ := h
  rw [exec_prim, State.call_issue hp ho hl]

theorem Seq.issue_trace (S : Seq) (c : Config) (op : OpTag) (p : Prim) (rest : List Prim) (a : Answer) :
    (S.issue c op p rest a).trace = S.trace ++ issueEvents op p rest a := by
  cases a with
  | fail => simp [Seq.issue_fail, issueEvents]
  | ok => cases rest <;> simp [Seq.issue_last, Seq.issue_more, issueEvents]

/-- Only a failed call enters Desync (R114). -/
theorem Seq.issue_ok_not_desync {S : Seq} (hp : S.phase = .busy) (c : Config) (op : OpTag) (p : Prim)
    (rest : List Prim) : (S.issue c op p rest .ok).phase ≠ .desync := by
  cases rest with
  | nil => simp [Seq.issue_last]
  | cons p' ps => simp [Seq.issue_more, hp]

theorem issueEvents_no_request (op : OpTag) (p : Prim) (rest : List Prim) (a : Answer) :
    (issueEvents op p rest a).countP isRequest = 0 := by
  cases a with
  | fail => rfl
  | ok => cases rest <;> rfl

theorem issueEvents_one_call (op : OpTag) (p : Prim) (rest : List Prim) (a : Answer) :
    (issueEvents op p rest a).countP isCall = 1 := by
  cases a with
  | fail => rfl
  | ok => cases rest <;> rfl

/-- An issue step leaves the rest of the list pending, or nothing after a failure. -/
theorem Seq.issue_pend_length_le (S : Seq) (c : Config) (op : OpTag) (p : Prim) (rest : List Prim) (a : Answer) :
    (S.issue c op p rest a).pend.length ≤ rest.length := by
  cases a with
  | fail => simp [Seq.issue_fail]
  | ok => cases rest <;> simp [Seq.issue_last, Seq.issue_more]

/-! ### Waits -/

/-- A wait latches nothing, so under a met contract the controller stays as it was. -/
theorem Bus.call_wait_dev {b : Bus} {d : DelayClass} (hw : (b.call (.wait d) .ok).watch ≠ .violation) :
    (b.call (.wait d) .ok).dev = b.dev := by
  rw [Bus.call_watch] at hw
  cases hk : b.watch.onCall (.wait d) .ok with
  | violation => exact absurd hk hw
  | running l g => rw [Bus.call_dev, Bus.devAfter_running hk, Bus.latched_of_ne_pulse _ _ (by simp), List.foldl_nil]

/-! ### Steps within Busy -/

/-- The steps an operation in progress can still take: the words from outside and the pending primitives. -/
def State.stepsLeft (s : State) : Nat := s.bus.inbox.length + s.seq.pend.length

/-- A step from Busy takes a word from outside or issues a primitive. -/
theorem step_busy_cases (hp : s.seq.phase = .busy) (h : step s = .next t) :
    (s.bus.inbox.length = t.bus.inbox.length + 1 ∧ t.seq = s.seq ∧ t.port = s.port) ∨
    ∃ op p rest, s.Issues op p rest ∧ t = s.issue op p rest := by
  rcases step_cases h with ⟨w, ws, hi, ⟨d, -, rfl⟩ | ⟨-, rfl⟩⟩ | ⟨op, p, rest, -, hb, ho, hl, rfl⟩ |
    ⟨q, qs, -, hn, -, -⟩ | ⟨-, hn, -, -⟩
  · exact .inl ⟨by simp [hi, Bus.obey], rfl, rfl⟩
  · exact .inl ⟨by simp [hi], rfl, rfl⟩
  · exact .inr ⟨op, p, rest, ⟨hb, ho, hl⟩, rfl⟩
  · exact absurd hp hn
  · exact absurd hp hn

/-- No step from Busy takes a request from the port (R78). -/
theorem step_busy_takes_no_request (hp : s.seq.phase = .busy) (h : step s = .next t) :
    t.port = s.port ∧ t.seq.trace.countP isRequest = s.seq.trace.countP isRequest := by
  rcases step_busy_cases hp h with ⟨-, hseq, hport⟩ | ⟨op, p, rest, -, rfl⟩
  · exact ⟨hport, by rw [hseq]⟩
  · refine ⟨rfl, ?_⟩
    rw [State.issue_seq, Seq.issue_trace, List.countP_append, issueEvents_no_request, Nat.add_zero]

/-- A step from Busy leaves fewer steps, and each call recorded was a primitive pending. -/
theorem step_busy_progress (hp : s.seq.phase = .busy) (h : step s = .next t) :
    t.stepsLeft < s.stepsLeft ∧
    t.seq.trace.countP isCall + t.seq.pend.length ≤ s.seq.trace.countP isCall + s.seq.pend.length := by
  rcases step_busy_cases hp h with ⟨hi, hseq, -⟩ | ⟨op, p, rest, ⟨-, -, hl⟩, rfl⟩
  · rw [State.stepsLeft, State.stepsLeft, hseq]
    exact ⟨by omega, le_rfl⟩
  · have hpend := s.seq.issue_pend_length_le s.cfg op p rest (s.bus.answerTo p)
    rw [State.stepsLeft, State.stepsLeft, State.issue_bus, State.issue_seq, Bus.call_inbox, Seq.issue_trace,
      List.countP_append, issueEvents_one_call, hl, List.length_cons]
    omega

theorem run_succ_of_step {M : Host.Core} {n : Nat} {x y : M.State} (h : M.step x = .next y) :
    M.run (n + 1) x = M.run n y := by
  rw [Host.Core.run, h]

/-- A coherent state leaves Busy within any number of steps that bounds the steps left. -/
theorem Seq.Coherent.run_leaves_busy (n : Nat) (hs : s.seq.Coherent s.cfg) (hn : s.stepsLeft ≤ n) :
    ∃ k t, k ≤ n ∧ core.run k s = .next t ∧ t.seq.phase ≠ .busy ∧
      t.seq.trace.countP isCall ≤ s.seq.trace.countP isCall + s.seq.pend.length := by
  induction n generalizing s with
  | zero =>
    have hpend : s.seq.pend = [] := List.length_eq_zero_iff.1 (by rw [State.stepsLeft] at hn; omega)
    exact ⟨0, s, le_rfl, rfl, fun hp => (hs.busy hp).pending hpend, Nat.le_add_right _ _⟩
  | succ n ih =>
    by_cases hp : s.seq.phase = .busy
    · obtain ⟨s', hstep⟩ := hs.step_next
      obtain ⟨hless, hcalls⟩ := step_busy_progress hp hstep
      obtain ⟨k, t, hk, hrun, ht, hle⟩ := ih (step_keeps_coherence hs hstep) (by omega)
      exact ⟨k + 1, t, by omega, (run_succ_of_step (M := core) hstep).trans hrun, ht, hle.trans hcalls⟩
    · exact ⟨0, s, Nat.zero_le _, rfl, hp, Nat.le_add_right _ _⟩

end Sys2Proof.Machine
end

section
open Sys2Proof Sys2Proof.Machine

/-- Settles O8, by the form's column: each is placed first where the fetch looks first. -/
theorem placedInstructionIsFetched : Obligations.PlacedInstructionIsFetched := by
  intro s e i hdec
  cases e with
  | dev w =>
    obtain ⟨d, hd, rfl⟩ := decode_dev_eq_ok.1 hdec
    exact s.placeWord_fetch hd
  | req r =>
    obtain rfl : (decodeRequest r).toInstr = i := Except.ok.inj ((decode_req r).symm.trans hdec)
    exact s.placeRequest_fetch _
  | prim w =>
    obtain ⟨p, hp, rfl⟩ := decode_prim_eq_ok.1 hdec
    simp only [State.place, hp]
    exact ⟨_, s.placePrim_fetch p⟩

/-- Settles O22: a wait is the sequencer's own call, which latches nothing, or is made past it and only counts as a draw. -/
theorem waitsAnswerOkAndTouchNothing : Obligations.WaitsAnswerOkAndTouchNothing := by
  intro s d
  refine ⟨s.call (.wait d), exec_prim _ s, s.call_cfg _, s.call_port _, s.call_line _, s.call_inbox _, ?_,
    s.call_answers _, ?_⟩
  · rcases s.call_cases (.wait d) with ⟨op, rest, -, -, -, he⟩ | ⟨-, he⟩ <;> rw [he]
    · exact Bus.call_wait_dev
    · exact fun _ => rfl
  · refine ⟨fun hno => ?_, fun op rest hi => ?_⟩
    · rw [State.call_bypass hno]
      exact ⟨rfl, rfl, rfl⟩
    · obtain ⟨hp, ho, hl⟩ := hi
      rw [State.call_issue hp ho hl]
      exact ⟨rfl, Seq.issue_ok_not_desync hp s.cfg _ _ _, Seq.issue_trace s.seq s.cfg _ _ _ .ok⟩

/-- Settles O35: a request run in Busy is held, and a step from Busy obeys a word from outside or issues a primitive. -/
theorem busyHoldsRequests : Obligations.BusyHoldsRequests := by
  refine ⟨fun s q hp => ?_, fun s t => step_busy_takes_no_request⟩
  rw [exec_request_eq, verdict, hp]
  rfl

/-- Settles O50, by induction on the bound: every step from Busy leaves fewer words and primitives. -/
theorem everyOperationEnds : Obligations.EveryOperationEnds :=
  fun _ hs _ => hs.run_leaves_busy _ le_rfl

/-- Settles O23: the call is the sequencer's own, and not its last. -/
theorem issueOkAdvancesTheList : Obligations.IssueOkAdvancesTheList := by
  intro s op p p' rest hi ha
  refine ⟨_, exec_prim_of_issues hi, rfl, rfl, ?_⟩
  rw [State.issue_seq, ha, Seq.issue_more]

/-- Settles O25: the call is the sequencer's own, and fails. -/
theorem failedCallEntersDesync : Obligations.FailedCallEntersDesync := by
  intro s op p rest hi ha
  refine ⟨_, exec_prim_of_issues hi, rfl, rfl, ?_⟩
  rw [State.issue_seq, ha, Seq.issue_fail]
  simp [Seq.record, Seq.respond, Seq.enterDesync, filled, cellCount]
end

section
/-! SUPPORT. The expansions as lists: the calls of one transfer, of an Init and of a text, their number, the shadow after a text
and the cells it writes (R79, R83 to R92). -/

namespace Sys2Proof.Machine

variable {c : Config} {sh : RsShadow} {p q : Nat} {text : List Byte} {buf : List Cell}

/-! ### One transfer -/

/-- A transfer is three calls, after a select unless the shadow is the transfer's register (R79). -/
theorem xfer_eq_ite (sh : RsShadow) (reg : Reg) (b : Byte) :
    (xfer sh reg b).1 =
      if sh = .known reg then [.tx b, .pulse, .wait (delayOf reg b)]
      else [selOf reg, .tx b, .pulse, .wait (delayOf reg b)] := by
  unfold xfer
  split <;> rfl

/-- The transfer of an IR word, with the word's own class (R73). -/
theorem xferInstr_ir {d : DevInstr} (h : (enc d).reg = .ir) :
    (xferInstr sh d).1 =
      if sh = .known .ir then [.tx (enc d).byte, .pulse, .wait (enc d).d]
      else [.selIr, .tx (enc d).byte, .pulse, .wait (enc d).d] := by
  rw [xferInstr, xfer_eq_ite, enc_delayOf, h]
  rfl

theorem xfer_length (sh : RsShadow) (reg : Reg) (b : Byte) :
    (xfer sh reg b).1.length = 3 + bracket (sh != .known reg) := by
  rw [xfer_eq_ite]
  by_cases h : sh = .known reg
  · rw [if_pos h, h, bne_self_eq_false]
    rfl
  · rw [if_neg h, bne_iff_ne.2 h]
    rfl

theorem xfer_count_pulse (sh : RsShadow) (reg : Reg) (b : Byte) : (xfer sh reg b).1.count .pulse = 1 := by
  rw [xfer_eq_ite]
  cases reg <;> split <;> simp [selOf]

theorem xfer_count_wait (sh : RsShadow) (reg : Reg) (b : Byte) (d : DelayClass) :
    (xfer sh reg b).1.count (.wait d) = if delayOf reg b = d then 1 else 0 := by
  rw [xfer_eq_ite]
  cases reg <;> split <;> simp [selOf, List.count_cons]

/-! ### Init -/

/-- Init selects IR unless the shadow is there, and then sends its four bytes (R83). -/
theorem initSeq_eq_append (sh : RsShadow) :
    initSeq sh = (if sh = .known .ir then [] else [.selIr]) ++
      [.tx 0x38, .pulse, .wait .short, .tx 0x0C, .pulse, .wait .short, .tx 0x06, .pulse, .wait .short,
       .tx 0x01, .pulse, .wait .long] := by
  by_cases h : sh = .known .ir
  · subst h
    decide
  · simp only [initSeq, xferInstr, xfer, enc, h, if_false]
    decide

/-! ### Several transfers -/

theorem transfers_count_pulse (sh : RsShadow) (ds : List DevInstr) : (transfers sh ds).count .pulse = ds.length := by
  induction ds generalizing sh with
  | nil => rfl
  | cons d ds ih =>
    rw [transfers, List.count_append, ih, xferInstr, xfer_count_pulse, List.length_cons, Nat.add_comm]

theorem transfers_count_wait (sh : RsShadow) (ds : List DevInstr) (k : DelayClass) :
    (transfers sh ds).count (.wait k) = ds.countP fun d => (enc d).d = k := by
  induction ds generalizing sh with
  | nil => rfl
  | cons d ds ih =>
    rw [transfers, List.count_append, ih, xferInstr, xfer_count_wait, ← enc_delayOf, List.countP_cons, Nat.add_comm]
    simp

/-! ### Text -/

theorem rewrapInstrs_length (c : Config) (q : Nat) : (rewrapInstrs c q).length = bracket (endsRow c q) := by
  unfold rewrapInstrs
  cases endsRow c q <;> rfl

/-- A text sends one word for each character and one for each row end (R92). -/
theorem textInstrs_length (c : Config) (q : Nat) (text : List Byte) :
    (textInstrs c q text).length = text.length + rowEnds c q text.length := by
  induction text generalizing q with
  | nil => rfl
  | cons x xs ih =>
    rw [textInstrs, List.length_cons, List.length_append, ih, rewrapInstrs_length, List.length_cons, rowEnds_succ]
    unfold bracket
    omega

theorem textInstrs_short {d : DevInstr} (h : d ∈ textInstrs c q text) : (enc d).d = .short := by
  induction text generalizing q with
  | nil => cases h
  | cons x xs ih =>
    rcases List.mem_cons.1 h with rfl | h
    · rfl
    · rcases List.mem_append.1 h with h | h
      · unfold rewrapInstrs at h
        split at h
        · rw [List.mem_singleton.1 h]
          rfl
        · cases h
      · exact ih h

/-- After a character a row's end costs a select of IR, three calls and, before a further character, a select of DR. -/
theorem rewrap_length (c : Config) (q : Nat) : (rewrap c (.known .dr) q).1.length = 4 * bracket (endsRow c q) := by
  unfold rewrap
  cases endsRow c q with
  | true => exact xfer_length _ _ _
  | false => rfl

theorem rewrap_shadow_of_data (c : Config) (q : Nat) :
    (rewrap c (.known .dr) q).2 = if endsRow c q then .known .ir else .known .dr := by
  unfold rewrap
  split <;> rfl

/-- The shadow after a text is that after its last character (R88). -/
theorem writeSeq_shadow (h : text ≠ []) :
    (writeSeq c sh q text).2 = if endsRow c (q + text.length - 1) then .known .ir else .known .dr := by
  induction text generalizing sh q with
  | nil => exact absurd rfl h
  | cons x xs ih =>
    rw [writeSeq]
    by_cases hxs : xs = []
    · subst hxs
      exact rewrap_shadow_of_data c q
    · rw [ih hxs, List.length_cons, Nat.add_right_comm, Nat.add_assoc]

/-- The calls of a text: three for each character, four for each row end, and a select of DR wherever it is not selected. -/
theorem writeSeq_length (h : text ≠ []) :
    (writeSeq c sh q text).1.length =
      3 * text.length + bracket (sh != .known .dr) + 4 * rowEnds c q text.length + rowEnds c q (text.length - 1) := by
  induction text generalizing sh q with
  | nil => exact absurd rfl h
  | cons x xs ih =>
    have hx : (xferInstr sh (.data x)).1.length = 3 + bracket (sh != .known .dr) := xfer_length _ _ _
    have hk : rowEnds c q (xs.length + 1) = bracket (endsRow c q) + rowEnds c (q + 1) xs.length := rowEnds_succ c q _
    rw [writeSeq, List.length_append, List.length_append, hx, xferInstr_data_shadow, rewrap_length, List.length_cons, hk,
      Nat.add_sub_cancel]
    cases xs with
    | nil => simp [writeSeq, rowEnds]
    | cons y ys =>
      have hsel : bracket ((rewrap c (.known .dr) q).2 != .known .dr) = bracket (endsRow c q) := by
        rw [rewrap_shadow_of_data]
        cases endsRow c q <;> rfl
      have hk' : rowEnds c q (ys.length + 1) = bracket (endsRow c q) + rowEnds c (q + 1) ys.length := rowEnds_succ c q _
      rw [ih (List.cons_ne_nil y ys), hsel, List.length_cons, hk', Nat.add_sub_cancel]
      omega

/-! ### The bytes of a text -/

theorem dataByte_data (b : Byte) : dataByte (some (encodeDevice (.data b))) = some b := by
  revert b
  decide

theorem dataByte_address (a : Addr) : dataByte (some (encodeDevice (.setDdramAddress a))) = none := by
  revert a
  decide

theorem rewrapInstrs_no_data (c : Config) (q : Nat) :
    ((rewrapInstrs c q).map fun d => some (encodeDevice d)).filterMap dataByte = [] := by
  unfold rewrapInstrs
  split
  · simp [dataByte_address]
  · rfl

/-- The data words that a text sends carry its bytes. -/
theorem textInstrs_data (c : Config) (q : Nat) (text : List Byte) :
    ((textInstrs c q text).map fun d => some (encodeDevice d)).filterMap dataByte = text := by
  induction text generalizing q with
  | nil => rfl
  | cons x xs ih =>
    rw [textInstrs, List.map_cons, List.filterMap_cons_some (dataByte_data x), List.map_append, List.filterMap_append,
      rewrapInstrs_no_data, ih, List.nil_append]

/-- Each character of a text that fits stands in its own cell. -/
theorem bufRead_bufWriteText_own (hfit : q + text.length ≤ buf.length) (i : Nat) (h : i < text.length) :
    bufRead (q + i) (bufWriteText q text buf) = .char text[i] := by
  induction text generalizing q buf i with
  | nil => cases h
  | cons x xs ih =>
    rw [List.length_cons] at hfit h
    cases i with
    | zero =>
      rw [bufWriteText, bufRead_bufWriteText_other _ _ (.inl (by omega)), Nat.add_zero, bufRead_bufWrite_same,
        if_pos (by omega)]
      rfl
    | succ i =>
      rw [bufWriteText, show q + (i + 1) = q + 1 + i by omega]
      exact ih (by rw [bufWrite_length]; omega) i (by omega)

end Sys2Proof.Machine
end

section
open Sys2Proof Sys2Proof.Machine

/-- Settles O38: a text sends `n + k` words, all Short, and selects DR before each character that the shadow does not have it
selected for. -/
theorem writeTextPrimitiveCount : Obligations.WriteTextPrimitiveCount := by
  intro c sh p text hne n k prims
  have hshort : ∀ d ∈ textInstrs c p text, (enc d).d = .short := fun _ => textInstrs_short
  have hprims : prims = transfers sh (textInstrs c p text) := writeSeq_eq_transfers c sh p text
  refine ⟨writeSeq_length hne, ?_, ?_, ?_⟩
  · rw [hprims, transfers_count_pulse, textInstrs_length]
  · rw [hprims, transfers_count_wait, List.countP_eq_length.2 (by simpa using hshort), textInstrs_length]
  · rw [hprims, transfers_count_wait, List.countP_eq_zero]
    intro d hd
    simp [hshort d hd]

/-- Settles O39: the latch stream is that of the words sent, of which the data words carry the text; and each character has its
own cell. -/
theorem textBytesPassUnchanged : Obligations.TextBytesPassUnchanged := by
  intro c sh p text buf
  refine ⟨?_, fun hfit i h => bufRead_bufWriteText_own hfit i h⟩
  rw [writeSeq_eq_transfers, latchStream_transfers, textInstrs_data]

/-- Settles O37: the list written out, and the words of its four transfers. -/
theorem initIssuesFourInstructions : Obligations.InitIssuesFourInstructions := by
  intro sh
  refine ⟨?_, initSeq_eq_append sh, ?_, ?_, ?_⟩
  · rw [initSeq_eq_transfers, latchStream_transfers]
    decide
  all_goals
    rw [initSeq_eq_append]
    split <;> decide
end

section
/-! SUPPORT. What each request leads to in Ready, and where the cursor is seen one cell after a column and row (R80, R85 to R90,
R93). -/

namespace Sys2Proof.Machine

variable {s : State} {c : Config} {p col row : Nat} {text : List Byte}

/-! ### Requests in Ready -/

/-- In Ready every request is carried out. -/
theorem exec_request_of_ready (hp : s.seq.phase = .ready) (q : Request) :
    exec q.toInstr s = s.follow q (carriedOut s.cfg s.seq q) := by
  rw [exec_request_eq, verdict, hp]

/-- A request answered at once changes the last response and the trace only. -/
theorem exec_request_answered {q : Request} {r : Response} (hp : s.seq.phase = .ready)
    (h : carriedOut s.cfg s.seq q = .answered r) :
    exec q.toInstr s = .next { s with seq := { s.seq with
      last := some r, trace := s.seq.trace ++ [.req q, .resp r] } } := by
  rw [exec_request_of_ready hp, h]
  simp [State.follow, State.record, State.respond, Seq.record, Seq.respond]

/-- A request other than Init that starts enters Busy with its list and post, and is recorded. -/
theorem exec_request_started {q : Request} {ps : List Prim} {x : Post} (hp : s.seq.phase = .ready) (hq : q ≠ .init)
    (h : carriedOut s.cfg s.seq q = .started ps x) :
    exec q.toInstr s = .next { s with seq := { s.seq with
      phase := .busy, op := some q.tag, trace := s.seq.trace ++ [.req q], pend := ps, post := x } } := by
  rw [exec_request_of_ready hp, h, State.follow, State.opened_of_ne_init hq]
  rfl

theorem carriedOut_setCursor_inside {S : Seq} (hc : col < c.w) (hr : row < c.h) :
    carriedOut c S (.setCursor col row) = .started (cursorSeq c S.rs col row) (cursorPost c col row S.buf) :=
  if_neg (by omega)

theorem carriedOut_setCursor_outside {S : Seq} (h : col ≥ c.w ∨ row ≥ c.h) :
    carriedOut c S (.setCursor col row) = .answered (.err .setCursor .cursorOutOfRange) :=
  if_pos h

theorem carriedOut_writeText_fits {S : Seq} (hcur : S.cur = some p) (hne : text ≠ [])
    (hfit : p + text.length ≤ cellCount c) :
    carriedOut c S (.writeText text) = .started (writeSeq c S.rs p text).1 (writePost c S.rs p text S.buf) := by
  simp only [carriedOut, hne, hcur, if_false, if_neg hfit.not_gt]

theorem carriedOut_writeText_overflow {S : Seq} (hcur : S.cur = some p) (hne : text ≠ [])
    (hover : p + text.length > cellCount c) :
    carriedOut c S (.writeText text) = .answered (.err .writeText .textOverflow) := by
  simp only [carriedOut, hne, hcur, if_false, if_pos hover]

/-! ### The cursor one cell on -/

theorem viewOf_position (hc : col < c.w) (hr : row < c.h) : viewOf c (some (position c col row)) = .at col row := by
  have hmod : position c col row % c.w = col := by
    rw [position, Nat.mul_comm, Nat.mul_add_mod, Nat.mod_eq_of_lt hc]
  have hdiv : position c col row / c.w = row := by
    rw [position, Nat.mul_comm, Nat.mul_add_div (by omega), Nat.div_eq_of_lt hc, Nat.add_zero]
  rw [viewOf_cell c (position_lt hc hr), hmod, hdiv]

theorem position_succ_of_row_end (h : col + 1 = c.w) : position c col row + 1 = position c 0 (row + 1) := by
  rw [position, position, Nat.add_assoc, h, Nat.succ_mul, Nat.add_zero]

/-- One cell on is the next column, the next row's first, or past the last cell (R93). -/
theorem viewOf_position_succ (hc : col < c.w) (hr : row < c.h) :
    viewOf c (some (position c col row + 1)) =
      if col + 1 < c.w then .at (col + 1) row else if row + 1 < c.h then .at 0 (row + 1) else .past := by
  split
  next hcol => exact viewOf_position hcol hr
  next hcol =>
    rw [position_succ_of_row_end (by omega)]
    split
    next hrow => exact viewOf_position (by omega) hrow
    next hrow =>
      have hend : position c 0 (row + 1) = cellCount c := by
        rw [position, cellCount, show row + 1 = c.h by omega, Nat.mul_comm, Nat.add_zero]
      rw [hend]
      exact viewOf_end c

end Sys2Proof.Machine
end

section
open Sys2Proof Sys2Proof.Machine

/-- Settles O29: one transfer of the set-DDRAM byte, which is 0x80 and the cell's address. -/
theorem setCursorStartsOneTransfer : Obligations.SetCursorStartsOneTransfer := by
  intro s col row hp ha hc hr
  refine ⟨setDdramByte (addrOperand s.cfg (position s.cfg col row)), ?_, ?_⟩
  · rw [setDdramByte_toNat, ha.addrOperand_toNat _ (position_lt hc hr)]
    rfl
  · have hpend := xferInstr_ir (sh := s.seq.rs) (d := .setDdramAddress (addrOperand s.cfg (position s.cfg col row))) rfl
    exact hpend ▸ exec_request_started (q := .setCursor col row) hp (by simp) (carriedOut_setCursor_inside hc hr)

/-- Settles O31: the text's transfers, with the shadow after its last character. -/
theorem writeTextStarts : Obligations.WriteTextStarts := by
  intro s p text hp hcur hne hfit
  rw [← writeSeq_shadow (sh := s.seq.rs) hne]
  exact ⟨_, exec_request_started hp (by simp) (carriedOut_writeText_fits hcur hne hfit), rfl, rfl, rfl, rfl,
    writeSeq_ne_nil _ _ _ hne⟩

/-- Settles O42: the two posts add up to one cell past the column and row. -/
theorem setCursorThenOneCharacter : Obligations.SetCursorThenOneCharacter := by
  intro s col row hp hc hr
  refine ⟨_, exec_request_started hp (by simp) (carriedOut_setCursor_inside hc hr), fun u x hcfg hpu hcur => ?_⟩
  have hfit : position s.cfg col row + [x].length ≤ cellCount u.cfg := by
    rw [hcfg]
    exact position_lt hc hr
  exact ⟨_, exec_request_started hpu (by simp) (carriedOut_writeText_fits hcur (by simp) hfit), rfl,
    viewOf_position_succ hc hr⟩

/-- Settles O27: the accepted Init, with its list written out. -/
theorem initStartsTheSequence : Obligations.InitStartsTheSequence := by
  intro s hp four
  have hpend : initSeq s.seq.rs = if s.seq.rs = .known .ir then four else .selIr :: four := by
    rw [initSeq_eq_append]
    split <;> rfl
  rw [← hpend]
  exact exec_init_of_not_busy hp

/-- Settles O28: one transfer of the clear byte, whose class is Long. -/
theorem clearStartsOneTransfer : Obligations.ClearStartsOneTransfer := by
  intro s hp
  have hpend := xferInstr_ir (sh := s.seq.rs) (d := .clearDisplay) rfl
  exact hpend ▸ exec_request_started (q := .clear) hp (by simp) rfl

/-- Settles O30: out of range the request is answered at once. -/
theorem setCursorOutOfRangeRejected : Obligations.SetCursorOutOfRangeRejected :=
  fun _ _ _ hp h => exec_request_answered hp (carriedOut_setCursor_outside h)

/-- Settles O32: the empty text is answered at once, before the cursor is asked for. -/
theorem emptyWriteTextIsNoOp : Obligations.EmptyWriteTextIsNoOp :=
  fun _ hp => exec_request_answered (q := .writeText []) hp rfl

/-- Settles O33: a text that does not fit is answered at once. -/
theorem textOverflowRejectedWhole : Obligations.TextOverflowRejectedWhole :=
  fun _ _ _ hp hcur hne hover => exec_request_answered hp (carriedOut_writeText_overflow hcur hne hover)
end

section
/-! SUPPORT. Where the checker of R109 stands over the trace: what each event does to it, that an operation's calls take it from
the shadow to the post's, and the steps that keep it so (R109, R110). -/

namespace Sys2Proof.Machine

variable {s t : State} {q : Request} {S : Seq} {c : Config}

/-! ### The checker over a trace -/

@[simp] theorem checkTrace_concat (es : List Event) (e : Event) : checkTrace (es ++ [e]) = (checkTrace es).onEvent e := by
  rw [checkTrace_append, List.foldl_cons, List.foldl_nil]

@[simp] theorem Checker.onPrims_nil (k : Checker) : k.onPrims [] = k := rfl

theorem Checker.onPrims_cons (k : Checker) (p : Prim) (ps : List Prim) :
    k.onPrims (p :: ps) = (k.onCall p .ok).onPrims ps := rfl

/-! ### The contract by phase -/

theorem Seq.contractMet_ready (hp : S.phase = .ready) : S.ContractMet ↔ checkTrace S.trace = .running S.rs .idle := by
  simp only [Seq.ContractMet, hp]

theorem Seq.contractMet_busy (hp : S.phase = .busy) :
    S.ContractMet ↔ (checkTrace S.trace).onPrims S.pend = .running S.post.rs .idle := by
  simp only [Seq.ContractMet, hp]

theorem Seq.contractMet_desync (hp : S.phase = .desync) :
    S.ContractMet ↔ checkTrace S.trace = .running .unknown .idle := by
  simp only [Seq.ContractMet, hp]

/-- In Busy too: no calls still to come lead out of a violation. -/
theorem Seq.ContractMet.trace_accepted (h : S.ContractMet) : checkTrace S.trace ≠ .violation := by
  intro hv
  cases hp : S.phase with
  | ready => cases hv.symm.trans ((Seq.contractMet_ready hp).1 h)
  | busy =>
    rw [Seq.contractMet_busy hp, hv, Checker.onPrims_violation] at h
    cases h
  | desync => cases hv.symm.trans ((Seq.contractMet_desync hp).1 h)

/-- Outside Busy the checker is idle on the shadow, which is unknown in Desync (R31). -/
theorem Seq.ContractMet.idle (h : S.ContractMet) (hcoh : S.Coherent c) (hp : S.phase ≠ .busy) :
    checkTrace S.trace = .running S.rs .idle := by
  cases hph : S.phase with
  | ready => exact (Seq.contractMet_ready hph).1 h
  | busy => exact absurd hph hp
  | desync => rw [(hcoh.desync hph).shadow, (Seq.contractMet_desync hph).1 h]

/-! ### Updates that keep it -/

theorem Seq.ContractMet.record_req (h : S.ContractMet) (q : Request) : (S.record (.req q)).ContractMet := by
  simpa only [Seq.ContractMet, Seq.record_phase, Seq.record_trace, Seq.record_rs, Seq.record_pend, Seq.record_post,
    checkTrace_concat, Checker.onEvent] using h

theorem Seq.ContractMet.respond (h : S.ContractMet) (r : Response) : (S.respond r).ContractMet := by
  simpa only [Seq.ContractMet, Seq.respond_phase, Seq.respond_trace, Seq.respond_rs, Seq.respond_pend, Seq.respond_post,
    checkTrace_concat, Checker.onEvent] using h

theorem Seq.ContractMet.commit (h : S.ContractMet) (hp : S.phase = .busy) (hl : S.pend = []) : S.commit.ContractMet := by
  rw [Seq.contractMet_busy hp, hl] at h
  exact h

/-- The sequencer's own call, answered Ok or Fail, keeps the contract met. -/
theorem Seq.ContractMet.issue (h : S.ContractMet) (hp : S.phase = .busy) {p : Prim} {rest : List Prim}
    (hl : S.pend = p :: rest) (op : OpTag) (a : Answer) : (S.issue c op p rest a).ContractMet := by
  cases a with
  | fail =>
    refine Seq.ContractMet.respond ((Seq.contractMet_desync rfl).2 ?_) _
    rw [Seq.enterDesync_trace, Seq.record_trace, checkTrace_concat]
    exact Checker.onCall_fail _ p h.trace_accepted
  | ok =>
    rw [Seq.contractMet_busy hp, hl, Checker.onPrims_cons] at h
    have hone : ({ S.record (.call p .ok) with pend := rest } : Seq).ContractMet := by
      rw [Seq.contractMet_busy (by exact hp)]
      rwa [Seq.record_trace, checkTrace_concat]
    cases rest with
    | nil => exact (hone.commit hp rfl).respond _
    | cons p' ps => exact hone

/-! ### The calls of an operation -/

theorem Checker.onPrims_xferInstr (sh : RsShadow) (d : DevInstr) :
    (Checker.running sh .idle).onPrims (xferInstr sh d).1 = .running (xferInstr sh d).2 .idle :=
  Checker.onPrims_xfer _ _ _

theorem Checker.onPrims_initSeq (sh : RsShadow) :
    (Checker.running sh .idle).onPrims (initSeq sh) = .running (.known .ir) .idle := by
  simp only [initSeq, Checker.onPrims_append, Checker.onPrims_xferInstr]
  rfl

theorem Checker.onPrims_rewrap (c : Config) (sh : RsShadow) (q : Nat) :
    (Checker.running sh .idle).onPrims (rewrap c sh q).1 = .running (rewrap c sh q).2 .idle := by
  unfold rewrap
  split
  · exact Checker.onPrims_xferInstr _ _
  · rfl

theorem Checker.onPrims_writeSeq (c : Config) (sh : RsShadow) (q : Nat) (text : List Byte) :
    (Checker.running sh .idle).onPrims (writeSeq c sh q text).1 = .running (writeSeq c sh q text).2 .idle := by
  induction text generalizing sh q with
  | nil => rfl
  | cons b bs ih =>
    simp only [writeSeq, Checker.onPrims_append, Checker.onPrims_xferInstr, Checker.onPrims_rewrap, ih]

/-- Whatever is started, its calls take an idle checker from the shadow to the post's. -/
theorem Starts.onPrims {ps : List Prim} {x : Post} (hst : Starts s q ps x) :
    (Checker.running s.seq.rs .idle).onPrims ps = .running x.rs .idle := by
  cases q with
  | init =>
    obtain ⟨rfl, rfl⟩ := hst
    exact Checker.onPrims_initSeq _
  | clear =>
    obtain ⟨-, rfl, rfl⟩ := hst
    exact Checker.onPrims_xferInstr _ _
  | setCursor col row =>
    obtain ⟨-, -, -, rfl, rfl⟩ := hst
    exact Checker.onPrims_xferInstr _ _
  | writeText text =>
    obtain ⟨-, -, p, -, -, rfl, rfl⟩ := hst
    exact Checker.onPrims_writeSeq _ _ _ _

/-! ### Steps -/

theorem exec_request_keeps_contract (hcoh : s.seq.Coherent s.cfg) (hk : s.seq.ContractMet)
    (h : exec q.toInstr s = .next t) : t.seq.ContractMet := by
  rcases exec_request_cases h with ⟨-, rfl⟩ | ⟨-, -, r, -, rfl⟩ | ⟨hp, -, ps, x, hst, rfl⟩
  · exact hk
  · exact (hk.record_req q).respond r
  · rw [State.opened_seq]
    refine (Seq.contractMet_busy rfl).2 ?_
    have hidle := (hk.record_req q).idle (hcoh.record _) hp
    rw [State.start_seq, Seq.start_trace, State.record_seq, hidle]
    exact hst.onPrims

theorem step_keeps_contract (hcoh : s.seq.Coherent s.cfg) (hk : s.seq.ContractMet) (h : step s = .next t) :
    t.seq.ContractMet := by
  rcases step_cases h with ⟨w, ws, -, ⟨d, -, rfl⟩ | ⟨-, rfl⟩⟩ | ⟨op, p, rest, -, hp, -, hl, rfl⟩ | ⟨q, qs, -, -, -, he⟩ |
    ⟨-, -, -, rfl⟩
  · exact hk
  · exact hk
  · exact hk.issue hp hl op _
  · exact exec_request_keeps_contract (s := { s with port := qs }) hcoh hk he
  · exact hk

end Sys2Proof.Machine
end

section
open Sys2Proof Sys2Proof.Machine

/-- Settles O47, by the agent that moves: a call takes the checker one call along the way that leads to the post's shadow, and
a request starts calls that lead there; a trace on the way is never a Violation. -/
theorem stepKeepsTheContract : Obligations.StepKeepsTheContract := by
  intro s t hcoh hk h
  have hkept := step_keeps_contract hcoh hk h
  exact ⟨hkept, hkept.trace_accepted⟩
end

section
/-! SUPPORT. Calls out of order, calls past the sequencer, a power loss, and several units on one data bus: where they leave the
checker, of which controllers nothing is known after them, and what a byte on the shared data bus does not reach (R100, R107,
R109, R116, R125). -/

namespace Sys2Proof.Machine

variable {s u : State} {p : Prim} {b : Bus} {i j : Nat}

/-! ### Orders the checker rejects (R109) -/

/-- After a pulse only a wait is accepted. -/
theorem Checker.onCall_pulsed_transport (line : RsShadow) (b : Byte) (hp : p.onTransport = true) :
    (Checker.running line (.pulsed b)).onCall p .ok = .violation := by
  cases p with
  | wait d => cases hp
  | _ => rfl

/-- And only a wait of a class that suffices for the word. -/
theorem Checker.onCall_pulsed_wait_insufficient {r : Reg} {x : Byte} {d : DelayClass}
    (h : delayReaches d (delayOf r x) = false) :
    (Checker.running (.known r) (.pulsed x)).onCall (.wait d) .ok = .violation := by
  simp [Checker.onCall, h]

/-! ### Of what nothing is known -/

theorem Prim.onTransport_of_ne_wait (h : ∀ d, p ≠ .wait d) : p.onTransport = true := by
  cases p with
  | wait d => exact absurd rfl (h d)
  | _ => rfl

theorem Bus.stray_unspecified (b : Bus) (a : Answer) (hp : p.onTransport = true) : (b.stray p a).Unspecified := by
  refine ⟨Bus.stray_watch _ _ _ hp, fun x => ?_⟩
  rw [Bus.stray_dev _ _ _ hp]
  exact Device.unspecified_read _ _ _

theorem State.powerCycle_unspecified (s : State) : s.powerCycle.bus.Unspecified :=
  ⟨rfl, Device.unspecified_read _ _⟩

theorem State.interleaved_unspecified (s : State) : s.interleaved.bus.Unspecified :=
  ⟨rfl, Device.unspecified_read _ _⟩

/-! ### The byte on the shared data bus -/

theorem State.shareBus_eq (u t : State) :
    u.shareBus t = { u with bus := u.bus.withByte t.bus.line.bus } := rfl

theorem Mirrors.withByte {c : Config} {rs : RsShadow} {cur : Nat} {buf : List Cell} (h : Mirrors c rs cur buf b)
    (x : Option Byte) : Mirrors c rs cur buf (b.withByte x) := { h with }

/-- Before an operation's first call it will still present a byte of its own, so the one another unit presented reaches
nothing the mirror property speaks of. -/
theorem State.MirrorKept.shareBus (h : u.MirrorKept) (hmid : u.midway = false) (t : State) :
    (u.shareBus t).MirrorKept := by
  cases hp : u.seq.phase with
  | ready =>
    obtain ⟨hi, hc, hm⟩ := (State.mirrorKept_ready hp).1 h
    exact (State.mirrorKept_ready (s := u.shareBus t) hp).2 ⟨hi, hc, fun q hq => (hm q hq).withByte _⟩
  | busy =>
    obtain ⟨hi, hc, hidle, hm⟩ := (State.mirrorKept_busy hp).1 h
    obtain ⟨l, hl⟩ := hidle hmid
    obtain ⟨y, hy⟩ := Bus.replay_withByte u.seq.pend u.bus t.bus.line.bus l _ .idle hl (.inl rfl) hm.contract
    refine (State.mirrorKept_busy (s := u.shareBus t) hp).2 ⟨hi, hc, hidle, ?_⟩
    rw [State.shareBus_eq, hy]
    exact hm.withByte y
  | desync => exact (State.mirrorKept_desync (s := u.shareBus t) hp).2 ((State.mirrorKept_desync hp).1 h)

/-! ### The bench after a step -/

theorem State.beside_of_midway (t : State) (h : u.midway = true) : u.beside t = (u.shareBus t).interleaved := if_pos h

theorem State.beside_of_not_midway (t : State) (h : u.midway = false) : u.beside t = u.shareBus t := by
  simp [State.beside, h]

/-- The mover is interleaved if another unit is midway. -/
theorem State.among_of_midway (t : State) {us : List State} (hj : j ≠ i) (hu : us[j]? = some u) (h : u.midway = true) :
    t.among (us.eraseIdx i) = t.interleaved :=
  if_pos ((any_midway_eraseIdx us i).2 ⟨j, u, hj, hu, h⟩)

theorem State.among_of_no_midway (t : State) {us : List State}
    (h : ∀ (j : Nat) (u : State), j ≠ i → us[j]? = some u → u.midway = false) : t.among (us.eraseIdx i) = t := by
  refine if_neg fun hany => ?_
  obtain ⟨j, u, hj, hu, hm⟩ := (any_midway_eraseIdx us i).1 hany
  cases (h j u hj hu).symm.trans hm

theorem Bench.moved_of_calls (bench : Bench) (i : Nat) (t : State) (h : s.calls = true) :
    bench.moved i s t =
      { instances := moveAt (fun u => u.beside t) (t.among (bench.instances.eraseIdx i)) i bench.instances } := if_pos h

theorem Bench.moved_of_no_call (bench : Bench) (i : Nat) (t : State) (h : s.calls = false) :
    bench.moved i s t = { instances := moveAt id t i bench.instances } := by
  simp [Bench.moved, h]

end Sys2Proof.Machine
end

section
open Sys2Proof Sys2Proof.Machine

/-- Settles O26: a bypass and a power loss are changes of the bus alone, and either leaves the controller unspecified but a
wait. -/
theorem bypassLeavesTheSequencer : Obligations.BypassLeavesTheSequencer := by
  intro s p
  refine ⟨⟨rfl, rfl, rfl, Bus.stray_line _ _, fun hp => ?_, ?_⟩, ⟨rfl, rfl, rfl, s.powerCycle_unspecified⟩, fun hno => ?_⟩
  · exact Bus.stray_unspecified _ _ (Prim.onTransport_of_ne_wait hp)
  · rintro d rfl
    exact ⟨rfl, rfl⟩
  · rw [exec_prim, State.call_bypass hno]

/-- Settles O53: without interleaving a call hands the others its byte and nothing else; with it the mover and each unit
midway are left unspecified. -/
theorem sequentialInstancesAreIndependent : Obligations.SequentialInstancesAreIndependent := by
  constructor
  · intro b i s t hs hstep hquiet
    refine ⟨_, Bench.step_eq hs hstep, ?_⟩
    cases hc : s.calls with
    | true =>
      rw [Bench.moved_of_calls b i t hc, State.among_of_no_midway t (hquiet hc)]
      refine ⟨moveAt_length _ _ _ _, moveAt_self _ _ hs, fun j u hj hu => ⟨_, moveAt_other _ _ hj hu, ?_⟩⟩
      have hmid := hquiet hc j u hj hu
      rw [State.beside_of_not_midway t hmid]
      exact ⟨rfl, by simp, fun hm => hm.shareBus hmid t⟩
    | false =>
      rw [Bench.moved_of_no_call b i t hc]
      exact ⟨moveAt_length _ _ _ _, moveAt_self _ _ hs, fun j u hj hu =>
        ⟨u, moveAt_other _ _ hj hu, rfl, fun _ => rfl, id⟩⟩
  · intro b i k s t m hs hstep hc hk hm hmid
    refine ⟨_, Bench.step_eq hs hstep, ?_⟩
    rw [Bench.moved_of_calls b i t hc, State.among_of_midway t hk hm hmid]
    refine ⟨⟨_, moveAt_self _ _ hs, rfl, rfl, rfl, t.interleaved_unspecified⟩, fun j u hj hu =>
      ⟨_, moveAt_other _ _ hj hu, ?_⟩⟩
    cases hu' : u.midway with
    | true =>
      rw [State.beside_of_midway t hu']
      exact ⟨rfl, rfl, rfl, fun _ => State.interleaved_unspecified _, by simp⟩
    | false =>
      rw [State.beside_of_not_midway t hu']
      exact ⟨rfl, rfl, rfl, by simp, fun _ => rfl⟩

/-- Settles O59, by the checker's stage: before a pulse each is an order that R109 leaves to 'any other call', and after
it neither a transport call nor a short wait for a Long-class word settles the word. -/
theorem checkerRejectsTheNamedOrders : Obligations.CheckerRejectsTheNamedOrders := by
  intro line b b'
  refine ⟨rfl, rfl, rfl, fun d => ⟨rfl, rfl, rfl⟩, rfl, rfl, rfl, fun p hp => ?_, fun r hlong => ?_⟩
  · exact Checker.onCall_pulsed_transport line b (Prim.onTransport_of_ne_wait hp)
  · exact Checker.onCall_pulsed_wait_insufficient (by rw [hlong]; rfl)
end

section
/-! SUPPORT. How a step changes the phase, how the trace's responses keep up with its requests, and what a request leads to in
Desync (R113 to R115, R117). -/

namespace Sys2Proof

theorem Request.tag_eq_init_iff {q : Request} : q.tag = .init ↔ q = .init := by
  cases q <;> simp [Request.tag]

end Sys2Proof

namespace Sys2Proof.Machine

variable {s t : State} {q : Request} {S : Seq} {c : Config}

/-! ### The phase -/

/-- A request leaves the phase or, taken where it is carried out, starts its operation. -/
theorem exec_request_phase (h : exec q.toInstr s = .next t) :
    t.seq.phase = s.seq.phase ∨
    ((s.seq.phase = .desync → q = .init) ∧ t.seq.phase = .busy ∧ t.seq.op = some q.tag) := by
  rcases exec_request_cases h with ⟨-, rfl⟩ | ⟨-, -, r, -, rfl⟩ | ⟨-, hq, ps, x, -, rfl⟩
  · exact .inl rfl
  · exact .inl rfl
  · exact .inr ⟨fun hp => Request.tag_eq_init_iff.1 (hq hp), by simp, by simp⟩

/-- A step leaves the phase, issues a call, which enters Desync only if it fails, or takes a request, which in Desync is Init. -/
theorem step_phase (h : step s = .next t) :
    t.seq.phase = s.seq.phase ∨
    (∃ op p rest, s.Issues op p rest ∧ (t.seq.phase = .desync → s.bus.answerTo p = .fail)) ∨
    (∃ q, s.port.head? = some q ∧ (s.seq.phase = .desync → q = .init) ∧ t.seq.phase = .busy ∧
      t.seq.op = some q.tag) := by
  rcases step_cases h with ⟨w, ws, -, ⟨d, -, rfl⟩ | ⟨-, rfl⟩⟩ | ⟨op, p, rest, -, hp, ho, hl, rfl⟩ |
    ⟨q, qs, -, -, hq, he⟩ | ⟨-, -, -, rfl⟩
  · exact .inl rfl
  · exact .inl rfl
  · refine .inr (.inl ⟨op, p, rest, ⟨hp, ho, hl⟩, fun ht => ?_⟩)
    rw [State.issue_seq] at ht
    cases ha : s.bus.answerTo p with
    | fail => rfl
    | ok => exact absurd (ha ▸ ht) (Seq.issue_ok_not_desync hp s.cfg op p rest)
  · exact (exec_request_phase (s := { s with port := qs }) he).imp_right fun hstart => .inr ⟨q, by rw [hq]; rfl, hstart⟩
  · exact .inl rfl

/-! ### One response for each request -/

/-- In Busy a response is owed: as many are posted as requests were taken after the reset-time Init. -/
theorem Seq.answered_busy (hp : S.phase = .busy) :
    S.Answered ↔ S.trace.countP isResponse = S.trace.countP isRequest := by
  simp [Seq.Answered, hp, isBusy]

/-- Outside Busy none is owed: the reset-time Init has its response too. -/
theorem Seq.answered_not_busy (hp : S.phase ≠ .busy) :
    S.Answered ↔ S.trace.countP isResponse = S.trace.countP isRequest + 1 := by
  cases hph : S.phase with
  | busy => exact absurd hph hp
  | _ => simp [Seq.Answered, hph, isBusy]

/-- A request answered at once adds one request and one response. -/
theorem Seq.Answered.answer (h : S.Answered) (q : Request) (r : Response) : ((S.record (.req q)).respond r).Answered := by
  have hreq : ((S.record (.req q)).respond r).trace.countP isRequest = S.trace.countP isRequest + 1 := by
    simp [List.countP_cons, isRequest]
  have hresp : ((S.record (.req q)).respond r).trace.countP isResponse = S.trace.countP isResponse + 1 := by
    simp [List.countP_cons, isResponse]
  rw [Seq.Answered, Seq.respond_phase, Seq.record_phase, hreq, hresp, Nat.add_right_comm, h]

/-- A request that starts its operation owes its response. -/
theorem Seq.Answered.start (h : S.Answered) (hp : S.phase ≠ .busy) (q : Request) (ps : List Prim) (x : Post) :
    ((S.record (.req q)).start q.tag ps x).Answered := by
  rw [Seq.answered_not_busy hp] at h
  rw [Seq.answered_busy (Seq.start_phase _ _ _ _)]
  simp [h, isRequest, isResponse]

/-- An issue step posts the response owed, or stays in Busy and owes it still (R81, R114). -/
theorem Seq.issue_response_count (hp : S.phase = .busy) (c : Config) (op : OpTag) (p : Prim) (rest : List Prim)
    (a : Answer) :
    (issueEvents op p rest a).countP isResponse + (if isBusy (S.issue c op p rest a).phase then 1 else 0) = 1 := by
  cases a with
  | fail => simp [Seq.issue_fail, issueEvents, isResponse, isBusy]
  | ok => cases rest <;> simp [Seq.issue_last, Seq.issue_more, issueEvents, isResponse, isBusy, hp]

theorem Seq.Answered.issue (h : S.Answered) (hp : S.phase = .busy) (c : Config) (op : OpTag) (p : Prim)
    (rest : List Prim) (a : Answer) : (S.issue c op p rest a).Answered := by
  rw [Seq.answered_busy hp] at h
  rw [Seq.Answered, Seq.issue_trace, List.countP_append, List.countP_append, issueEvents_no_request, h, Nat.add_assoc,
    Seq.issue_response_count hp, Nat.add_zero]

theorem exec_request_keeps_answered (hs : s.seq.Answered) (h : exec q.toInstr s = .next t) : t.seq.Answered := by
  rcases exec_request_cases h with ⟨-, rfl⟩ | ⟨-, -, r, -, rfl⟩ | ⟨hp, -, ps, x, -, rfl⟩
  · exact hs
  · exact hs.answer q r
  · rw [State.opened_seq]
    exact hs.start hp q ps x

theorem step_keeps_answered (hs : s.seq.Answered) (h : step s = .next t) : t.seq.Answered := by
  rcases step_cases h with ⟨w, ws, -, ⟨d, -, rfl⟩ | ⟨-, rfl⟩⟩ | ⟨op, p, rest, -, hp, -, -, rfl⟩ | ⟨q, qs, -, -, -, he⟩ |
    ⟨-, -, -, rfl⟩
  · exact hs
  · exact hs
  · exact hs.issue hp s.cfg op p rest _
  · exact exec_request_keeps_answered (s := { s with port := qs }) hs he
  · exact hs

/-! ### Requests in Desync -/

/-- In Desync a request other than Init is not carried out (R115). -/
theorem verdict_desync (hp : S.phase = .desync) (hq : q ≠ .init) :
    verdict c S q = .answered (.err q.tag .desynchronized) := by
  rw [verdict, hp]
  exact if_neg fun h => hq (Request.tag_eq_init_iff.1 h)

/-- From an unknown shadow Init selects IR first (R83, R117). -/
theorem initSeq_unknown_length : (initSeq .unknown).length = 13 := by
  rw [initSeq_eq_append]
  rfl

theorem initSeq_unknown_head : (initSeq .unknown).head? = some .selIr := by
  rw [initSeq_eq_append]
  rfl

end Sys2Proof.Machine
end

section
open Sys2Proof Sys2Proof.Machine

/-- Settles O51, by the agent that moves: a call posts the response owed or leaves it owed, and a request is answered at once
or starts to owe its response. -/
theorem stepKeepsOneResponsePerRequest : Obligations.StepKeepsOneResponsePerRequest :=
  fun _ _ hs h => step_keeps_answered hs h

/-- Settles O57, by what a step does to the phase: of a call and a request, only the first enters Desync and only the second
leaves it. -/
theorem desyncEnteredByFailureLeftByInit : Obligations.DesyncEnteredByFailureLeftByInit := by
  intro s t h
  refine ⟨fun hs ht => ?_, fun hs ht => ?_⟩
  · rcases step_phase h with hsame | ⟨op, p, rest, hissues, hfail⟩ | ⟨q, -, -, hbusy, -⟩
    · exact absurd (hsame ▸ ht) hs
    · exact ⟨op, p, rest, hissues, hfail ht⟩
    · cases ht.symm.trans hbusy
  · rcases step_phase h with hsame | ⟨op, p, rest, ⟨hbusy, -, -⟩, -⟩ | ⟨q, hhead, hq, hbusy, hop⟩
    · exact absurd (hsame.trans hs) ht
    · cases hs.symm.trans hbusy
    · obtain rfl := hq hs
      exact ⟨hhead, hbusy, hop⟩

/-- Settles O34: another request's verdict is its answer, and Init's is its list from the unknown shadow. -/
theorem desyncAnswersOnlyInit : Obligations.DesyncAnswersOnlyInit := by
  intro s hp
  refine ⟨fun q hq => ?_, fun hrs => ?_⟩
  · rw [exec_request_eq, verdict_desync hp hq]
    simp [State.follow, State.record, State.respond, Seq.record, Seq.respond]
  · refine ⟨_, exec_init_of_not_busy (by simp [hp]), rfl, rfl, ?_⟩
    rw [State.restart_seq, State.start_seq, Seq.start_pend, hrs]
    exact ⟨initSeq_unknown_length, initSeq_unknown_head⟩
end

section
/-! SUPPORT. The construction checks as propositions, how many cells they leave room for, and the state construction gives
(R129 to R131). -/

namespace Sys2Proof.Machine

variable {c : Config} {s : State}

theorem sizesPositive_iff (c : Config) : sizesPositive c = true ↔ 1 ≤ c.w ∧ 1 ≤ c.h := by
  simp [sizesPositive]

theorem basesFit_iff (c : Config) :
    basesFit c = true ↔ c.h ≤ c.rowBase.length ∧ ∀ b ∈ c.rowBase, b < 0x80 := by
  simp [basesFit]

/-- The checks as R129 words them. -/
theorem admitted_iff (c : Config) :
    Admitted c ↔ c.transportBound = true ∧ (1 ≤ c.w ∧ 1 ≤ c.h) ∧
      (c.h ≤ c.rowBase.length ∧ ∀ b ∈ c.rowBase, b < 0x80) ∧
      (∀ q < cellCount c, addrOf c q ≤ 0x27 ∨ (0x40 ≤ addrOf c q ∧ addrOf c q ≤ 0x67)) ∧
      (∀ q < cellCount c, ∀ r < cellCount c, addrOf c q = addrOf c r → q = r) := by
  rw [Admitted, checkConfig_iff, sizesPositive_iff, basesFit_iff, addrsInRange_iff, addrsDistinct_iff]

theorem checkConfig_unbound (h : c.transportBound = false) : checkConfig c = .error .unboundTransport := if_pos h

/-- With a transport bound only the geometry can be refused. -/
theorem checkConfig_bound (h : c.transportBound = true) (hn : ¬ Admitted c) :
    checkConfig c = .error .invalidGeometry := by
  have hcases : checkConfig c = .ok () ∨ checkConfig c = .error .invalidGeometry := by
    rw [checkConfig, if_neg (by simp [h])]
    split_ifs <;> simp
  exact hcases.resolve_left hn

theorem construct_of_error {e : ConfigError} (h : checkConfig c = .error e) : construct c = .error e := by
  simp [construct, h]

theorem construct_of_admitted (h : Admitted c) : construct c = .ok (State.ofConfig c) := by
  simp [construct, show checkConfig c = .ok () from h]

/-- A state that construction gives is the reset state (R130, R131). -/
theorem eq_ofConfig_of_construct (h : construct c = .ok s) : s = State.ofConfig c := by
  cases hk : checkConfig c with
  | error e => cases (construct_of_error hk).symm.trans h
  | ok u => exact (Except.ok.inj ((construct_of_admitted hk).symm.trans h)).symm

/-! ### Room for the cells -/

theorem addrOf_first_row {q : Nat} (h : q < c.w) : addrOf c q = rowBaseAt c 0 + q := by
  rw [addrOf, Nat.div_eq_of_lt h, Nat.mod_eq_of_lt h]

/-- A row's addresses follow one another, so a row longer than a display range runs into the gap after it. -/
theorem Admitted.columns_le (h : Admitted c) : c.w ≤ 40 := by
  by_contra hw
  have hrow : ∀ q ≤ 40, rowBaseAt c 0 + q ≤ 0x27 ∨ (0x40 ≤ rowBaseAt c 0 + q ∧ rowBaseAt c 0 + q ≤ 0x67) := by
    intro q hq
    have hlt : q < c.w := by omega
    rw [← addrOf_first_row hlt]
    exact h.range q (hlt.trans_le (Nat.le_mul_of_pos_right _ h.pos.2))
  have hfirst := hrow 0 (by omega)
  have hgap := hrow (0x28 - rowBaseAt c 0)
  have hend := hrow (0x68 - rowBaseAt c 0)
  omega

/-- The display addresses of two-line mode (R37). -/
def displayAddrs : Finset Nat := Finset.range 0x28 ∪ Finset.Ico 0x40 0x68

theorem mem_displayAddrs {a : Nat} : a ∈ displayAddrs ↔ a ≤ 0x27 ∨ (0x40 ≤ a ∧ a ≤ 0x67) := by
  simp only [displayAddrs, Finset.mem_union, Finset.mem_range, Finset.mem_Ico]
  omega

theorem displayAddrs_card_le : displayAddrs.card ≤ 80 :=
  (Finset.card_union_le _ _).trans_eq (by rw [Finset.card_range, Nat.card_Ico])

/-- The cells have addresses of their own among the 80 display addresses. -/
theorem Admitted.cellCount_le (h : Admitted c) : cellCount c ≤ 80 := by
  have hcard : (Finset.range (cellCount c)).card ≤ displayAddrs.card := by
    refine Finset.card_le_card_of_injOn (addrOf c) (fun q hq => ?_) fun q hq r hr => ?_
    · exact mem_displayAddrs.2 (h.range q (Finset.mem_range.1 hq))
    · exact h.injective q (Finset.mem_range.1 hq) r (Finset.mem_range.1 hr)
  rw [Finset.card_range] at hcard
  exact hcard.trans displayAddrs_card_le

end Sys2Proof.Machine
end

section
open Sys2Proof Sys2Proof.Machine

/-- Settles O9: with a transport bound, the checks pass exactly where the propositions of R129 hold, and every failure is the
geometry's. -/
theorem constructionChecksInOrder : Obligations.ConstructionChecksInOrder := by
  intro c
  refine ⟨fun hb => construct_of_error (checkConfig_unbound hb), fun hb hn => ?_, fun hb hsize hbases hrange hinj => ?_⟩
  · exact construct_of_error (checkConfig_bound hb fun ha => hn ((admitted_iff c).1 ha).2)
  · exact construct_of_admitted ((admitted_iff c).2 ⟨hb, hsize, hbases, hrange, hinj⟩)

/-- Settles O10: the first row lies within one display range, and the cells share the 80 addresses of both. -/
theorem validGeometryIsSmall : Obligations.ValidGeometryIsSmall :=
  fun _ h => ⟨h.columns_le, h.cellCount_le⟩

/-- Settles O12: the state constructed is the reset state, whose fields are those of R17. -/
theorem constructionGivesS0 : Obligations.ConstructionGivesS0 := by
  refine ⟨construct_of_admitted (by decide), fun c s h => ?_⟩
  obtain rfl := eq_ofConfig_of_construct h
  exact ⟨rfl, rfl, initSeq_unknown_head, rfl⟩
end

section
/-! SUPPORT. The least duration of a list of transfers, which is that of their waits (R100, R142). -/

namespace Sys2Proof.Machine

variable {c : Config} {sh : RsShadow}

theorem minTime_xferInstr (c : Config) (sh : RsShadow) (d : DevInstr) :
    minTime c (xferInstr sh d).1 = minTimeOf c (.wait (enc d).d) := by
  rw [xferInstr, minTime_xfer, ← enc_delayOf]
  cases (enc d).d <;> rfl

theorem minTime_transfers (c : Config) (sh : RsShadow) (ds : List DevInstr) :
    minTime c (transfers sh ds) = (ds.map fun d => minTimeOf c (.wait (enc d).d)).sum := by
  induction ds generalizing sh with
  | nil => rfl
  | cons d ds ih => rw [transfers, minTime_append, minTime_xferInstr, ih, List.map_cons, List.sum_cons]

theorem minTime_transfers_short {ds : List DevInstr} (h : ∀ d ∈ ds, (enc d).d = .short) :
    minTime c (transfers sh ds) = ds.length * c.tShort := by
  have hwaits : ∀ d ∈ ds, minTimeOf c (.wait (enc d).d) = c.tShort := fun d hd => by rw [h d hd]; rfl
  rw [minTime_transfers, List.map_congr_left hwaits, List.map_const', List.sum_replicate, smul_eq_mul]

/-- Under R10's order of the durations a class that reaches another waits no less. -/
theorem ValidConfig.wait_monotone (hv : ValidConfig c) {d1 d2 : DelayClass} (h : delayReaches d1 d2 = true) :
    minTimeOf c (.wait d2) ≤ minTimeOf c (.wait d1) := by
  cases d1 with
  | long =>
    cases d2 with
    | long => exact le_rfl
    | short => exact hv.ordered
  | short =>
    cases d2 with
    | long => cases h
    | short => exact le_rfl

end Sys2Proof.Machine
end

section
open Sys2Proof Sys2Proof.Machine

/-- Settles O43: each operation is a list of transfers, of one wait each; those of a text are one Short wait for each
character and each row end. -/
theorem leastDurations : Obligations.LeastDurations := by
  refine ⟨fun c sh => ⟨?_, ?_, fun col row => ?_, fun p text => ?_⟩, fun c hv d1 d2 h => hv.wait_monotone h⟩
  · rw [initSeq_eq_transfers, minTime_transfers]
    simp only [List.map_cons, List.map_nil, List.sum_cons, List.sum_nil, enc, minTimeOf]
    omega
  · exact minTime_xferInstr c sh .clearDisplay
  · exact minTime_xferInstr c sh (.setDdramAddress _)
  · rw [writeSeq_eq_transfers, minTime_transfers_short fun d => textInstrs_short, textInstrs_length]
end

section
/-! SUPPORT. The calls of an operation in progress, one step each, under answers fixed in advance (R81, R95, R114, R132). -/

namespace Sys2Proof.Machine

variable {s : State} {p : Prim} {op : OpTag} {as : List Answer}

/-- Answers that begin with an Ok for each call on the transport: the next call takes its own, a wait none. -/
theorem Bus.answers_of_oks {b : Bus} {k : Nat}
    (h : b.answers = List.replicate (k + if p.onTransport then 1 else 0) .ok ++ as) :
    b.answerTo p = .ok ∧ b.answersAfter p = List.replicate k .ok ++ as := by
  cases hp : p.onTransport with
  | true =>
    rw [hp, if_pos rfl, List.replicate_succ, List.cons_append] at h
    rw [Bus.answerTo_of_onTransport b hp, Bus.answersAfter_of_onTransport b hp, Bus.nextAnswer, h]
    exact ⟨rfl, rfl⟩
  | false =>
    obtain ⟨d, rfl⟩ : ∃ d, p = .wait d := by
      by_contra hw
      rw [Prim.onTransport_of_ne_wait fun d hd => hw ⟨d, hd⟩] at hp
      cases hp
    exact ⟨rfl, h⟩

theorem Seq.issue_ok_of_ne_nil (S : Seq) (c : Config) (op : OpTag) (p : Prim) {rest : List Prim} (h : rest ≠ []) :
    S.issue c op p rest .ok = { S with pend := rest, trace := S.trace ++ [.call p .ok] } := by
  cases rest with
  | nil => exact absurd rfl h
  | cons p' ps => exact S.issue_more c op p p' ps

/-- As many steps as `issued` has calls, all answered Ok, take the sequencer on to the call after them. -/
theorem run_calls_ok (issued : List Prim) {rest : List Prim} (hi : s.bus.inbox = []) (hp : s.seq.phase = .busy)
    (ho : s.seq.op = some op) (hl : s.seq.pend = issued ++ p :: rest)
    (ha : s.bus.answers = List.replicate (issued.countP Prim.onTransport) .ok ++ as) :
    ∃ t : State, (∀ n, core.run (issued.length + n) s = core.run n t) ∧ t.cfg = s.cfg ∧ t.bus.inbox = [] ∧
      t.bus.answers = as ∧
      t.seq = { s.seq with pend := p :: rest, trace := s.seq.trace ++ issued.map fun q => .call q .ok } := by
  induction issued generalizing s with
  | nil =>
    refine ⟨s, fun n => by rw [List.length_nil, Nat.zero_add], rfl, hi, ha, ?_⟩
    rw [List.map_nil, List.append_nil, ← List.nil_append (p :: rest), ← hl]
  | cons q issued ih =>
    rw [List.countP_cons] at ha
    obtain ⟨hok, has⟩ := Bus.answers_of_oks ha
    have hstep : core.step s = .next (s.issue op q (issued ++ p :: rest)) := step_of_issues hi ⟨hp, ho, hl⟩
    have hseq : (s.issue op q (issued ++ p :: rest)).seq =
        { s.seq with pend := issued ++ p :: rest, trace := s.seq.trace ++ [.call q .ok] } := by
      rw [State.issue_seq, hok, Seq.issue_ok_of_ne_nil _ _ _ _ (by simp)]
    obtain ⟨t, hrun, hcfg, hinbox, hans, hS⟩ :=
      ih (s := s.issue op q (issued ++ p :: rest)) hi (by rw [hseq]; exact hp) (by rw [hseq]; exact ho) (by rw [hseq]) has
    refine ⟨t, fun n => ?_, hcfg, hinbox, hans, ?_⟩
    · rw [List.length_cons, Nat.add_right_comm, run_succ_of_step hstep, hrun]
    · rw [hS, hseq, List.append_assoc]
      rfl

/-- In a list with more than `k` calls on the transport there is one with `k` of them before it. -/
theorem exists_call_after (ps : List Prim) {k : Nat} (h : k < ps.countP Prim.onTransport) :
    ∃ issued p rest, ps = issued ++ p :: rest ∧ issued.countP Prim.onTransport = k ∧ p.onTransport = true := by
  induction ps generalizing k with
  | nil => simp at h
  | cons q ps ih =>
    cases hq : q.onTransport with
    | false =>
      rw [List.countP_cons_of_neg (by simp [hq])] at h
      obtain ⟨issued, p, rest, rfl, hk, hp⟩ := ih h
      exact ⟨q :: issued, p, rest, rfl, by rw [List.countP_cons_of_neg (by simp [hq]), hk], hp⟩
    | true =>
      cases k with
      | zero => exact ⟨[], q, ps, rfl, rfl, hq⟩
      | succ k =>
        rw [List.countP_cons_of_pos hq] at h
        obtain ⟨issued, p, rest, rfl, hk, hp⟩ := ih (Nat.lt_of_succ_lt_succ h)
        exact ⟨q :: issued, p, rest, rfl, by rw [List.countP_cons_of_pos hq, hk], hp⟩

/-- An operation whose calls are all answered Ok completes with the last of them, a wait (R81). -/
theorem run_completes (issued : List Prim) {d : DelayClass} (hi : s.bus.inbox = []) (hp : s.seq.phase = .busy)
    (ho : s.seq.op = some op) (hl : s.seq.pend = issued ++ [.wait d])
    (ha : s.bus.answers = List.replicate (issued.countP Prim.onTransport) .ok) :
    ∃ t : State, core.run (issued.length + 1) s = .next t ∧ t.cfg = s.cfg ∧
      t.seq = ({ s.seq with trace := s.seq.trace ++ (issued ++ [Prim.wait d]).map fun q => .call q .ok } :
        Seq).commit.respond (.done op) := by
  rw [← List.append_nil (List.replicate _ _)] at ha
  obtain ⟨t, hrun, hcfg, hinbox, -, hS⟩ := run_calls_ok issued hi hp ho hl ha
  have hstep : core.step t = .next (t.issue op (.wait d) []) :=
    step_of_issues hinbox ⟨by rw [hS]; exact hp, by rw [hS]; exact ho, by rw [hS]⟩
  refine ⟨t.issue op (.wait d) [], ?_, hcfg, ?_⟩
  · exact (hrun 1).trans (run_succ_of_step hstep)
  · rw [State.issue_seq, Bus.answerTo_wait, Seq.issue_last, hS]
    simp [Seq.record, Seq.commit]

/-- An operation whose call after `k` on the transport is the first to fail ends in Desync with it (R114). -/
theorem run_fails {k : Nat} (hi : s.bus.inbox = []) (hp : s.seq.phase = .busy) (ho : s.seq.op = some op)
    (hk : k < s.seq.pend.countP Prim.onTransport) (ha : s.bus.answers = List.replicate k .ok ++ .fail :: as) :
    ∃ n t, n ≤ s.seq.pend.length ∧ core.run n s = .next t ∧ t.seq.phase = .desync ∧
      t.seq.last = some (.err op .transportError) := by
  obtain ⟨issued, p, rest, hl, rfl, hon⟩ := exists_call_after _ hk
  obtain ⟨t, hrun, -, hinbox, hans, hS⟩ := run_calls_ok issued hi hp ho hl ha
  have hstep : core.step t = .next (t.issue op p rest) :=
    step_of_issues hinbox ⟨by rw [hS]; exact hp, by rw [hS]; exact ho, by rw [hS]⟩
  have hfail : t.bus.answerTo p = .fail := by rw [Bus.answerTo_of_onTransport _ hon, Bus.nextAnswer, hans]
  have hissue : (t.issue op p rest).seq =
      ((t.seq.record (.call p .fail)).enterDesync t.cfg).respond (.err op .transportError) := by
    rw [State.issue_seq, hfail, Seq.issue_fail]
  exact ⟨issued.length + 1, t.issue op p rest, by simp [hl], (hrun 1).trans (run_succ_of_step hstep), by rw [hissue]; rfl,
    by rw [hissue]; rfl⟩

/-! ### The reset-time Init -/

/-- The reset state with the transport's first answers fixed (R18, R131; log 2). -/
def State.resetAnswering (c : Config) (as : List Answer) : State :=
  { State.ofConfig c with bus := { Bus.reset c with answers := as } }

/-- Its last call is the clear's wait, after nine calls on the transport. -/
theorem initSeq_unknown_ends_in_wait : ∃ issued, initSeq .unknown = issued ++ [.wait .long] ∧ issued.length = 12 ∧
    issued.countP Prim.onTransport = 9 :=
  ⟨(initSeq .unknown).dropLast, by decide, by decide, by decide⟩

theorem cursorView_first_cell (ha : Admitted s.cfg) (h : s.seq.cur = some 0) : s.cursorView = .at 0 0 := by
  rw [State.cursorView, h, viewOf_cell _ ha.cellCount_pos, Nat.zero_mod, Nat.zero_div]

end Sys2Proof.Machine
end

section
open Sys2Proof Sys2Proof.Machine

/-- Settles O13: the pending list of reset is issued call by call, to its last wait or to the first call that fails. -/
theorem firstInitEndsAsStated : Obligations.FirstInitEndsAsStated := by
  intro c
  obtain ⟨issued, hinit, hlen, hcount⟩ := initSeq_unknown_ends_in_wait
  constructor
  · obtain ⟨t, hrun, hcfg, hS⟩ := run_completes (s := State.resetAnswering c (List.replicate 9 .ok)) issued rfl rfl rfl
      hinit (by rw [hcount]; rfl)
    rw [hlen] at hrun
    rw [← hinit] at hS
    refine ⟨t, hrun, by rw [hS]; rfl, by rw [hS]; rfl, by rw [hS]; rfl, fun ha => ?_, by rw [hS]; rfl, by rw [hS]; rfl,
      by rw [hS]; rfl, initSeq_unknown_length⟩
    exact cursorView_first_cell (by rwa [hcfg]) (by rw [hS]; rfl)
  · intro k hk
    have hcalls : (initSeq .unknown).countP Prim.onTransport = 9 := by decide
    rw [← initSeq_unknown_length]
    exact run_fails (s := State.resetAnswering c (List.replicate k .ok ++ [.fail])) rfl rfl rfl
      (hk.trans_eq hcalls.symm) rfl
end
